-- ==== Sys2Proof/Word.lean ====
section
/-! DEFINITION. The word types of the core (00_scope.md rules R5, R7, R8). -/

namespace Sys2Proof

/-- The contents of a V register, a timer or a memory byte: 8 bits, unsigned (R21, R28, R50). -/
abbrev Byte := BitVec 8

/-- A 16-bit value: pc, I, a stack entry (R23, R25, R26). -/
abbrev Word := BitVec 16

/-- A fetched instruction word (R70). -/
abbrev Opcode := BitVec 16

/-- A register number V0..VF: every 4-bit field value names a register (R21). -/
abbrev Reg := Fin 16

/-- The register that doubles as the carry, borrow and collision flag (R22). -/
def VF : Reg := 15

/-- The register that Bnnn adds to its address (R108). -/
def V0 : Reg := 0

end Sys2Proof
end

