-- ==== Sys2Proof/Syntax.lean ====
section
/-! DEFINITION. The instructions: one constructor per row of the dispatch table (30_encoding.md rule R74), in the
table's order, with the fields its format uses (rules R71 to R73). -/

namespace Sys2Proof

/-- The 35 instructions of rule R74. `x` and `y` are register numbers, `nn` an 8-bit and `nnn` a 12-bit immediate,
`n` a count of sprite rows. -/
inductive Instr where
  /-- 0000 -/
  | nop
  /-- 00E0 -/
  | cls
  /-- 00EE -/
  | ret
  /-- 1nnn -/
  | jp (nnn : BitVec 12)
  /-- 2nnn -/
  | call (nnn : BitVec 12)
  /-- 3xnn -/
  | seImm (x : Reg) (nn : Byte)
  /-- 4xnn -/
  | sneImm (x : Reg) (nn : Byte)
  /-- 5xy0 -/
  | seReg (x y : Reg)
  /-- 6xnn -/
  | ldImm (x : Reg) (nn : Byte)
  /-- 7xnn -/
  | addImm (x : Reg) (nn : Byte)
  /-- 8xy0 -/
  | ldReg (x y : Reg)
  /-- 8xy1 -/
  | orReg (x y : Reg)
  /-- 8xy2 -/
  | andReg (x y : Reg)
  /-- 8xy3 -/
  | xorReg (x y : Reg)
  /-- 8xy4 -/
  | addReg (x y : Reg)
  /-- 8xy5 -/
  | subReg (x y : Reg)
  /-- 8xy6; y is encoded and ignored (R140). -/
  | shr (x y : Reg)
  /-- 8xy7 -/
  | subn (x y : Reg)
  /-- 8xyE; y is encoded and ignored (R142). -/
  | shl (x y : Reg)
  /-- 9xy0 -/
  | sneReg (x y : Reg)
  /-- Annn -/
  | ldI (nnn : BitVec 12)
  /-- Bnnn -/
  | jpV0 (nnn : BitVec 12)
  /-- Cxnn -/
  | rnd (x : Reg) (nn : Byte)
  /-- Dxyn -/
  | drw (x y : Reg) (n : Nat)
  /-- Ex9E -/
  | skp (x : Reg)
  /-- ExA1 -/
  | sknp (x : Reg)
  /-- Fx07 -/
  | ldVxDT (x : Reg)
  /-- Fx0A -/
  | ldVxK (x : Reg)
  /-- Fx15 -/
  | ldDTVx (x : Reg)
  /-- Fx18 -/
  | ldSTVx (x : Reg)
  /-- Fx1E -/
  | addI (x : Reg)
  /-- Fx29 -/
  | ldF (x : Reg)
  /-- Fx33 -/
  | ldB (x : Reg)
  /-- Fx55 -/
  | ldMemVx (x : Reg)
  /-- Fx65 -/
  | ldVxMem (x : Reg)
deriving DecidableEq, Repr

end Sys2Proof
end

