-- ==== Sys2Proof/Decode.lean ====
section
/-! DEFINITION. The decoder, the encoder and the opcode table (30_encoding.md). -/

namespace Sys2Proof

/-- Why bytes are no instruction. -/
inductive Reject where
  /-- The word matches no row of the dispatch table: "anything else | fatal: unimplemented opcode" (R77). -/
  | unimplementedOpcode (op : Opcode)
  /-- Fewer than the two bytes of an instruction (R70). -/
  | truncated
deriving DecidableEq, Repr

/-- The register number held in a 4-bit field (R71, R72). -/
def regOfNibble (v : BitVec 4) : Reg := ⟨v.toNat, v.isLt⟩

/-- nibble1, the major opcode: op[15:12] (R71). -/
def fieldN1 (op : Opcode) : BitVec 4 := op.extractLsb' 12 4

/-- x: op[11:8] (R71). -/
def fieldX (op : Opcode) : Reg := regOfNibble (op.extractLsb' 8 4)

/-- y: op[7:4] (R71). -/
def fieldY (op : Opcode) : Reg := regOfNibble (op.extractLsb' 4 4)

/-- n: op[3:0] (R71). -/
def fieldN (op : Opcode) : BitVec 4 := op.extractLsb' 0 4

/-- nn: op[7:0] (R71). -/
def fieldNN (op : Opcode) : Byte := op.extractLsb' 0 8

/-- nnn: op[11:0] (R71). -/
def fieldNNN (op : Opcode) : BitVec 12 := op.extractLsb' 0 12

/-- The words with nibble1 = 0: only 0000, 00E0 and 00EE (R76). -/
def decode0 (op : Opcode) : Except Reject Instr :=
  match (fieldNNN op).toNat with
  | 0x000 => .ok .nop
  | 0x0E0 => .ok .cls
  | 0x0EE => .ok .ret
  | _ => .error (.unimplementedOpcode op)

/-- The words with nibble1 = 8, told apart by n (R76). -/
def decode8 (op : Opcode) : Except Reject Instr :=
  match (fieldN op).toNat with
  | 0x0 => .ok (.ldReg (fieldX op) (fieldY op))
  | 0x1 => .ok (.orReg (fieldX op) (fieldY op))
  | 0x2 => .ok (.andReg (fieldX op) (fieldY op))
  | 0x3 => .ok (.xorReg (fieldX op) (fieldY op))
  | 0x4 => .ok (.addReg (fieldX op) (fieldY op))
  | 0x5 => .ok (.subReg (fieldX op) (fieldY op))
  | 0x6 => .ok (.shr (fieldX op) (fieldY op))
  | 0x7 => .ok (.subn (fieldX op) (fieldY op))
  | 0xE => .ok (.shl (fieldX op) (fieldY op))
  | _ => .error (.unimplementedOpcode op)

/-- The words with nibble1 = E, told apart by nn (R76). -/
def decodeE (op : Opcode) : Except Reject Instr :=
  match (fieldNN op).toNat with
  | 0x9E => .ok (.skp (fieldX op))
  | 0xA1 => .ok (.sknp (fieldX op))
  | _ => .error (.unimplementedOpcode op)

/-- The words with nibble1 = F, told apart by nn (R76). -/
def decodeF (op : Opcode) : Except Reject Instr :=
  match (fieldNN op).toNat with
  | 0x07 => .ok (.ldVxDT (fieldX op))
  | 0x0A => .ok (.ldVxK (fieldX op))
  | 0x15 => .ok (.ldDTVx (fieldX op))
  | 0x18 => .ok (.ldSTVx (fieldX op))
  | 0x1E => .ok (.addI (fieldX op))
  | 0x29 => .ok (.ldF (fieldX op))
  | 0x33 => .ok (.ldB (fieldX op))
  | 0x55 => .ok (.ldMemVx (fieldX op))
  | 0x65 => .ok (.ldVxMem (fieldX op))
  | _ => .error (.unimplementedOpcode op)

/-- A form whose low nibble must be 0: 5xy0 and 9xy0 (R76). -/
def decodeXY0 (op : Opcode) (i : Instr) : Except Reject Instr :=
  if fieldN op = 0 then .ok i else .error (.unimplementedOpcode op)

/-- The decoder: "an exact match on (nibble1, nibble2, nibble3, nibble4) with wildcards on operand nibbles" (R74,
R75). It reads the word and nothing else. -/
def decodeWord (op : Opcode) : Except Reject Instr :=
  match (fieldN1 op).toNat with
  | 0x0 => decode0 op
  | 0x1 => .ok (.jp (fieldNNN op))
  | 0x2 => .ok (.call (fieldNNN op))
  | 0x3 => .ok (.seImm (fieldX op) (fieldNN op))
  | 0x4 => .ok (.sneImm (fieldX op) (fieldNN op))
  | 0x5 => decodeXY0 op (.seReg (fieldX op) (fieldY op))
  | 0x6 => .ok (.ldImm (fieldX op) (fieldNN op))
  | 0x7 => .ok (.addImm (fieldX op) (fieldNN op))
  | 0x8 => decode8 op
  | 0x9 => decodeXY0 op (.sneReg (fieldX op) (fieldY op))
  | 0xA => .ok (.ldI (fieldNNN op))
  | 0xB => .ok (.jpV0 (fieldNNN op))
  | 0xC => .ok (.rnd (fieldX op) (fieldNN op))
  | 0xD => .ok (.drw (fieldX op) (fieldY op) (fieldN op).toNat)
  | 0xE => decodeE op
  | 0xF => decodeF op
  | _ => .error (.unimplementedOpcode op)

/-- Two bytes as a word, the byte at the lower address in bits 15:8 (R53). -/
def wordOfBytes (hi lo : Byte) : Word := hi ++ lo

/-- The byte of a word that is stored at the lower address (R53). -/
def highByte (w : Word) : Byte := w.extractLsb' 8 8

/-- The byte of a word that is stored at the higher address (R53). -/
def lowByte (w : Word) : Byte := w.extractLsb' 0 8

/-- Decode the first instruction of a byte sequence, and give the bytes after it. -/
def decode : List Byte → Except Reject (Instr × List Byte)
  | hi :: lo :: rest =>
    match decodeWord (wordOfBytes hi lo) with
    | .ok i => .ok (i, rest)
    | .error r => .error r
  | _ => .error .truncated

/-- The 4-bit field that holds a register number. -/
def nibbleOfReg (x : Reg) : BitVec 4 := BitVec.ofNat 4 x.val

/-- F_XNN: n1, x, nn (R73). -/
def encXNN (n1 : BitVec 4) (x : Reg) (nn : Byte) : Opcode := n1 ++ nibbleOfReg x ++ nn

/-- F_NNN: n1, nnn (R73). -/
def encNNN (n1 : BitVec 4) (nnn : BitVec 12) : Opcode := n1 ++ nnn

/-- F_XY and F_XYN: n1, x, y, n (R73). -/
def encXYN (n1 : BitVec 4) (x y : Reg) (n : BitVec 4) : Opcode := n1 ++ nibbleOfReg x ++ nibbleOfReg y ++ n

/-- The encoder: the word of an instruction, from the formats of R73 and the patterns of R74. -/
def encode : Instr → Opcode
  | .nop => 0x0000
  | .cls => 0x00E0
  | .ret => 0x00EE
  | .jp nnn => encNNN 0x1 nnn
  | .call nnn => encNNN 0x2 nnn
  | .seImm x nn => encXNN 0x3 x nn
  | .sneImm x nn => encXNN 0x4 x nn
  | .seReg x y => encXYN 0x5 x y 0x0
  | .ldImm x nn => encXNN 0x6 x nn
  | .addImm x nn => encXNN 0x7 x nn
  | .ldReg x y => encXYN 0x8 x y 0x0
  | .orReg x y => encXYN 0x8 x y 0x1
  | .andReg x y => encXYN 0x8 x y 0x2
  | .xorReg x y => encXYN 0x8 x y 0x3
  | .addReg x y => encXYN 0x8 x y 0x4
  | .subReg x y => encXYN 0x8 x y 0x5
  | .shr x y => encXYN 0x8 x y 0x6
  | .subn x y => encXYN 0x8 x y 0x7
  | .shl x y => encXYN 0x8 x y 0xE
  | .sneReg x y => encXYN 0x9 x y 0x0
  | .ldI nnn => encNNN 0xA nnn
  | .jpV0 nnn => encNNN 0xB nnn
  | .rnd x nn => encXNN 0xC x nn
  | .drw x y n => encXYN 0xD x y (BitVec.ofNat 4 n)
  | .skp x => encXNN 0xE x 0x9E
  | .sknp x => encXNN 0xE x 0xA1
  | .ldVxDT x => encXNN 0xF x 0x07
  | .ldVxK x => encXNN 0xF x 0x0A
  | .ldDTVx x => encXNN 0xF x 0x15
  | .ldSTVx x => encXNN 0xF x 0x18
  | .addI x => encXNN 0xF x 0x1E
  | .ldF x => encXNN 0xF x 0x29
  | .ldB x => encXNN 0xF x 0x33
  | .ldMemVx x => encXNN 0xF x 0x55
  | .ldVxMem x => encXNN 0xF x 0x65

/-- The bytes of an instruction as memory holds them, the high byte first (R53, R70). -/
def encodeBytes (i : Instr) : List Byte := [highByte (encode i), lowByte (encode i)]

/-- A row of the dispatch table: it matches `op` when `op &&& mask = pat` (R74). -/
structure OpcodeRow where
  mask : Word
  pat  : Word
deriving DecidableEq, Repr

/-- Whether a word matches a row (R74, R75). -/
def OpcodeRow.matches (r : OpcodeRow) (op : Opcode) : Bool := op &&& r.mask == r.pat

/-- The row of rule R74 that stands for an instruction: its mask and match columns. -/
def Instr.row : Instr → OpcodeRow
  | .nop => ⟨0xFFFF, 0x0000⟩
  | .cls => ⟨0xFFFF, 0x00E0⟩
  | .ret => ⟨0xFFFF, 0x00EE⟩
  | .jp _ => ⟨0xF000, 0x1000⟩
  | .call _ => ⟨0xF000, 0x2000⟩
  | .seImm _ _ => ⟨0xF000, 0x3000⟩
  | .sneImm _ _ => ⟨0xF000, 0x4000⟩
  | .seReg _ _ => ⟨0xF00F, 0x5000⟩
  | .ldImm _ _ => ⟨0xF000, 0x6000⟩
  | .addImm _ _ => ⟨0xF000, 0x7000⟩
  | .ldReg _ _ => ⟨0xF00F, 0x8000⟩
  | .orReg _ _ => ⟨0xF00F, 0x8001⟩
  | .andReg _ _ => ⟨0xF00F, 0x8002⟩
  | .xorReg _ _ => ⟨0xF00F, 0x8003⟩
  | .addReg _ _ => ⟨0xF00F, 0x8004⟩
  | .subReg _ _ => ⟨0xF00F, 0x8005⟩
  | .shr _ _ => ⟨0xF00F, 0x8006⟩
  | .subn _ _ => ⟨0xF00F, 0x8007⟩
  | .shl _ _ => ⟨0xF00F, 0x800E⟩
  | .sneReg _ _ => ⟨0xF00F, 0x9000⟩
  | .ldI _ => ⟨0xF000, 0xA000⟩
  | .jpV0 _ => ⟨0xF000, 0xB000⟩
  | .rnd _ _ => ⟨0xF000, 0xC000⟩
  | .drw _ _ _ => ⟨0xF000, 0xD000⟩
  | .skp _ => ⟨0xF0FF, 0xE09E⟩
  | .sknp _ => ⟨0xF0FF, 0xE0A1⟩
  | .ldVxDT _ => ⟨0xF0FF, 0xF007⟩
  | .ldVxK _ => ⟨0xF0FF, 0xF00A⟩
  | .ldDTVx _ => ⟨0xF0FF, 0xF015⟩
  | .ldSTVx _ => ⟨0xF0FF, 0xF018⟩
  | .addI _ => ⟨0xF0FF, 0xF01E⟩
  | .ldF _ => ⟨0xF0FF, 0xF029⟩
  | .ldB _ => ⟨0xF0FF, 0xF033⟩
  | .ldMemVx _ => ⟨0xF0FF, 0xF055⟩
  | .ldVxMem _ => ⟨0xF0FF, 0xF065⟩

/-- One instruction of each row of R74, in the table's order. -/
def oneOfEachRow : List Instr :=
  [.nop, .cls, .ret, .jp 0, .call 0, .seImm 0 0, .sneImm 0 0, .seReg 0 0, .ldImm 0 0, .addImm 0 0, .ldReg 0 0,
   .orReg 0 0, .andReg 0 0, .xorReg 0 0, .addReg 0 0, .subReg 0 0, .shr 0 0, .subn 0 0, .shl 0 0, .sneReg 0 0] ++
  [.ldI 0, .jpV0 0, .rnd 0 0, .drw 0 0 0, .skp 0, .sknp 0, .ldVxDT 0, .ldVxK 0, .ldDTVx 0, .ldSTVx 0, .addI 0,
   .ldF 0, .ldB 0, .ldMemVx 0, .ldVxMem 0]

/-- The dispatch table: the 35 rows of R74. -/
def opcodeTable : List OpcodeRow := oneOfEachRow.map Instr.row

/-- The instruction the decoder reads from a word numbered as spec/opcode_table.json numbers it: the word's two bytes,
the high one first, given to `decode`; bits at and above `nbits` are zero. -/
def decodeTableWord (nbits w : Nat) : Option Instr :=
  let op : Word := BitVec.ofNat 16 (w % 2 ^ nbits)
  match decode [highByte op, lowByte op] with
  | .ok (i, _) => some i
  | .error _ => none

end Sys2Proof
end

