-- ==== Sys2Proof/Config.lean ====
section
/-! DEFINITION. What an implementation fixes: the constants and the OPEN parameters of 00_scope.md rule R5, and
the free draws of Cxnn. -/

namespace Sys2Proof.Config

/-- MEM_SIZE: addresses 0x000 to 0xFFF (R5, R50). -/
def memSize : Nat := 4096

/-- PROGRAM_BASE and RESET_PC (R5, R58). -/
def programBase : Nat := 0x200

/-- STACK_DEPTH: entries of the return-address stack (R5, R26). -/
def stackDepth : Nat := 16

/-- FONT_LEN: bytes of the character sprite set at 0x000 (R5). -/
def fontLen : Nat := 80

/-- ALU_VARIANT: the two semantics of 8xy2, 8xy3 and 8xy5 (R5, R131). -/
inductive AluVariant where
  /-- 8xy2 and 8xy3 compute OR, 8xy5 adds. -/
  | asImplemented
  /-- 8xy2 is AND, 8xy3 is XOR, 8xy5 subtracts. -/
  | conventional
deriving DecidableEq, Repr

/-- VF_WRITE_ORDER: which of result and flag VF keeps when x = F (R5, R130). -/
inductive VfWriteOrder where
  | flagLast
  | resultLast
deriving DecidableEq, Repr

/-- The OPEN parameters of the core. R5: each "is an argument of the model". -/
structure Params where
  aluVariant   : AluVariant
  vfWriteOrder : VfWriteOrder
  /-- FONT: the 80 bytes of the sixteen built-in character sprites, character k at 5k (R5, R58). -/
  font         : Vector Byte 80
deriving DecidableEq, Repr

/-- The default FONT of 92_eei_decisions.md D5, "for test runs only". DESIGN CHOICE, unsafe: log 2. -/
def defaultFont : Vector Byte 80 := #v[
  0xF0, 0x90, 0x90, 0x90, 0xF0,   0x20, 0x60, 0x20, 0x20, 0x70,
  0xF0, 0x10, 0xF0, 0x80, 0xF0,   0xF0, 0x10, 0xF0, 0x10, 0xF0,
  0x90, 0x90, 0xF0, 0x10, 0x10,   0xF0, 0x80, 0xF0, 0x10, 0xF0,
  0xF0, 0x80, 0xF0, 0x90, 0xF0,   0xF0, 0x10, 0x20, 0x40, 0x40,
  0xF0, 0x90, 0xF0, 0x90, 0xF0,   0xF0, 0x90, 0xF0, 0x10, 0xF0,
  0xF0, 0x90, 0xF0, 0x90, 0x90,   0xE0, 0x90, 0xE0, 0x90, 0xE0,
  0xF0, 0x80, 0x80, 0x80, 0xF0,   0xE0, 0x90, 0x90, 0x90, 0xE0,
  0xF0, 0x80, 0xF0, 0x80, 0xF0,   0xF0, 0x80, 0xF0, 0x80, 0x80]

/-- The parameters of an executable test run: CONVENTIONAL, FLAG_LAST and the default FONT (R5, D3, D4, D5).
DESIGN CHOICE, unsafe for a claim that rests on them: logs 1 and 2. -/
def testRun : Params := ⟨.conventional, .flagLast, defaultFont⟩

/-- The byte an address holds right after INITIALIZE or RESET: FONT, then zero (R38, R58). It is what an address
that the memory list does not name reads as (log 8). -/
def Params.resetByte (p : Params) (a : Nat) : Byte :=
  if h : a < 80 then p.font[a] else 0

/-- The k-th random byte that Cxnn draws: free, under no law (R143, D2). DESIGN CHOICE: log 3. -/
opaque rndDraw : Nat → Byte

end Sys2Proof.Config
end

