-- ==== Sys2Proof/Machine/State.lean ====
section
/-! DEFINITION. The state of the core (10_state.md), the reasons a step can stop, and the state after INITIALIZE. -/

namespace Sys2Proof.Machine

/-- The six kinds of core fault (60_exceptions.md rule R170). -/
inductive FaultKind where
  | unimplementedOpcode
  | stackOverflow
  | stackUnderflow
  | fetchOutOfBounds
  | dataOutOfBounds
  | keyIndexOutOfRange
deriving DecidableEq, Repr

/-- The fault record (R33): the kind, the address of the faulting instruction, the fetched word (none for a fetch
fault), and the offending address or key index where the kind has one. -/
structure FaultRecord where
  kind   : FaultKind
  pc     : Word
  opcode : Option Opcode
  addr   : Option Nat
deriving DecidableEq, Repr

/-- RUNNING or HALTED(record) (R33). -/
inductive Status where
  | running
  | halted (r : FaultRecord)
deriving DecidableEq, Repr

/-- The framebuffer: 2048 cells, "one bit per cell" (R120), held as 32 rows of 64 columns; bit x of row y is cell
(x, y), cell y * 64 + x of the row-major sequence, 1 = lit (R31). -/
abbrev Display := Vector (BitVec 64) 32

/-- The bytes of memory that differ from their reset contents, by rising address (R50, log 8). -/
abbrev Memory := List Host.Cell

/-- MachineState (R20), and the model's own last two fields. -/
structure State where
  /-- V[0..15] (R21); V[15] is VF (R22). -/
  V      : Vector Byte 16
  /-- The program counter (R23). -/
  pc     : Word
  /-- The index register (R25). -/
  I      : Word
  /-- The return-address stack, a register file of its own (R26). -/
  stack  : Vector Word 16
  /-- The stack pointer, 0..16: the next free slot (R27). -/
  SP     : Byte
  /-- The delay timer (R28). -/
  DT     : Byte
  /-- The sound timer (R29). -/
  ST     : Byte
  /-- The keys, true = pressed (R30). -/
  key    : Vector Bool 16
  /-- The framebuffer (R31). -/
  disp   : Display
  /-- The byte memory (R32, R50). -/
  mem    : Memory
  /-- RUNNING or HALTED (R33). -/
  status : Status
  /-- The model's own: how many random bytes have been drawn (log 3). -/
  draws  : Nat
  /-- The model's own: the OPEN parameters of rule R5, which nothing changes (log 1). -/
  params : Config.Params
deriving DecidableEq, Repr

/-- How the model itself can stop. The spec's faults are no such stop: they are next states with status HALTED. -/
inductive Fault where
  /-- Raised by CALL and RET when SP is above 16, where the stack has no entry: no state of the machine (R27: "SP stays
  in 0..16"). Safe: no run from reset reaches it. Log 7. -/
  | stackPointerOutOfRange
deriving DecidableEq, Repr

/-- Why an instruction is given no meaning. -/
inductive Refusal where
  /-- Raised by an arm of `exec` whose instruction has no meaning yet; no arm does. Safe. -/
  | notModelled (mnemonic : String)
deriving DecidableEq, Repr

/-- What a step answers. -/
abbrev Result := Host.Outcome State Fault Refusal

/-- INITIALIZE under given parameters: every field at its reset value (R38, R200). Memory lists nothing, since an
unlisted address reads as its reset contents. -/
def State.initial (p : Config.Params) : State where
  V := Vector.replicate 16 0
  pc := 0x200
  I := 0
  stack := Vector.replicate 16 0
  SP := 0
  DT := 0
  ST := 0
  key := Vector.replicate 16 false
  disp := Vector.replicate 32 0
  mem := []
  status := .running
  draws := 0
  params := p

/-- The machine right after reset, with the parameters of a test run (logs 1 and 2). -/
def State.reset : State := State.initial Config.testRun

end Sys2Proof.Machine
end

