-- ==== Sys2Proof/Machine/Ops.lean ====
section
/-! DEFINITION. The named operations over registers, stack and memory, the fetch, taking a fault and leaving it. Every
read and write of the state in a meaning goes through these. -/

namespace Sys2Proof.Machine

/-! ## One field at a time -/

/-- `V[i]` (R9). -/
def State.readV (s : State) (x : Reg) : Byte := s.V[x]

/-- `V[i] <- v` (R9). No register is hardwired (R21). -/
def State.writeV (s : State) (x : Reg) (b : Byte) : State := { s with V := s.V.set x b }

/-- `pc <- target` (R9). -/
def State.setPc (s : State) (w : Word) : State := { s with pc := w }

def State.setI (s : State) (w : Word) : State := { s with I := w }

def State.setDT (s : State) (b : Byte) : State := { s with DT := b }

def State.setST (s : State) (b : Byte) : State := { s with ST := b }

def State.setSP (s : State) (b : Byte) : State := { s with SP := b }

/-- `stack[k] <- w`. -/
def State.setStack (s : State) (k : Fin 16) (w : Word) : State := { s with stack := s.stack.set k w }

/-- `key[k] <- b`, by the KEY transaction only (R30). -/
def State.setKey (s : State) (k : Fin 16) (b : Bool) : State := { s with key := s.key.set k b }

def State.setDisp (s : State) (d : Display) : State := { s with disp := d }

def State.setMem (s : State) (m : Memory) : State := { s with mem := m }

def State.setStatus (s : State) (st : Status) : State := { s with status := st }

def State.setV (s : State) (v : Vector Byte 16) : State := { s with V := v }

/-- The random byte of this STEP and the state that has consumed it (R143; log 3). -/
def State.drawRnd (s : State) : Byte × State := (Config.rndDraw s.draws, { s with draws := s.draws + 1 })

/-! ## Memory -/

/-- The byte a list names at an address, if it names one. -/
def Memory.lookup : Memory → Nat → Option Byte
  | [], _ => none
  | (k, b) :: m, a => if k = a then some b else Memory.lookup m a

/-- Put a byte at an address of a rising list. -/
def Memory.insert : Memory → Nat → Byte → Memory
  | [], a, v => [(a, v)]
  | (k, b) :: m, a, v =>
    if a < k then (a, v) :: (k, b) :: m
    else if k = a then (a, v) :: m
    else (k, b) :: Memory.insert m a v

/-- Take an address out of a list. -/
def Memory.erase : Memory → Nat → Memory
  | [], _ => []
  | (k, b) :: m, a => if k = a then m else (k, b) :: Memory.erase m a

/-- What an address reads as: its entry, else its reset contents (R58; log 8). -/
def Memory.read (p : Config.Params) (m : Memory) (a : Nat) : Byte :=
  (Memory.lookup m a).getD (p.resetByte a)

/-- Store a byte, keeping the one canonical form: a byte equal to the reset contents is not listed (log 8). -/
def Memory.write (p : Config.Params) (m : Memory) (a : Nat) (v : Byte) : Memory :=
  if v = p.resetByte a then Memory.erase m a else Memory.insert m a v

/-- The canonical form: addresses strictly rising and inside memory, no byte equal to its reset contents. -/
abbrev Memory.wf (p : Config.Params) (m : Memory) : Prop :=
  m.Pairwise (fun c d => c.1 < d.1) ∧ ∀ c ∈ m, c.1 < Config.memSize ∧ c.2 ≠ p.resetByte c.1

/-- `mem[a]`. -/
def State.readByte (s : State) (a : Nat) : Byte := Memory.read s.params s.mem a

/-- `mem[a] <- v`. -/
def State.writeByte (s : State) (a : Nat) (v : Byte) : State := s.setMem (Memory.write s.params s.mem a v)

/-- MemRead(addr, 1): none where the access faults, at or above 4096 (R52). -/
def State.memRead (s : State) (a : Nat) : Option Byte :=
  if a < Config.memSize then some (s.readByte a) else none

/-- Bytes stored at consecutive addresses, lowest first (R54). -/
def State.storeBytes : State → Nat → List Byte → State
  | s, _, [] => s
  | s, a, b :: bs => State.storeBytes (s.writeByte a b) (a + 1) bs

/-- Bytes read from consecutive addresses, lowest first (R54). -/
def State.readBytes (s : State) : Nat → Nat → List Byte
  | _, 0 => []
  | a, n + 1 => s.readByte a :: s.readBytes (a + 1) n

/-- The smallest out-of-range address of the `len` bytes from `base`, where there is one (R52, R172). -/
def rangeFault (base len : Nat) : Option Nat :=
  if len = 0 ∨ base + len ≤ Config.memSize then none else some (max base Config.memSize)

/-! ## The fetch -/

/-- The word at pc, or the first byte address that is out of range (R91). -/
def State.fetch (s : State) : Except Nat Opcode :=
  match s.memRead s.pc.toNat with
  | none => .error s.pc.toNat
  | some hi =>
    match s.memRead (s.pc.toNat + 1) with
    | none => .error (s.pc.toNat + 1)
    | some lo => .ok (wordOfBytes hi lo)

/-- The fetch advance, `pc <- pc0 + 2`, before every execute (R92). -/
def State.advance (s : State) : State := s.setPc (s.pc + 2)

/-- `skip()`: `pc <- pc + 2` after the advance, when the condition holds (R97). -/
def State.skipIf (s : State) (c : Bool) : State := if c then s.setPc (s.pc + 2) else s

/-! ## Taking a fault, and leaving it -/

/-- Fault entry: nothing of the STEP is committed, status becomes HALTED with the record, whose pc is the faulting
instruction's own address (R95, R173). `s` is the state before the fetch advance. -/
def State.enterFault (s : State) (kind : FaultKind) (op : Option Opcode) (addr : Option Nat) : State :=
  s.setStatus (.halted ⟨kind, s.pc, op, addr⟩)

/-- `raise Fault(kind, addr)` by the instruction `i` (R10, R95; logs 4, 5 and 6). -/
def raise (s : State) (i : Instr) (kind : FaultKind) (addr : Option Nat) : Result :=
  .next (s.enterFault kind (some (encode i)) addr)

/-- RESET: the way out of HALTED; there is no trap return (R174, R201). The parameters are fixed for the machine and
the draws go on (log 16). -/
def State.resetCore (s : State) : State := { State.initial s.params with draws := s.draws }

/-- Run `body` on the advanced state when the `len` data bytes from I are in range, else take DATA_OUT_OF_BOUNDS: all
the addresses are checked before the first write (R94, R122, R153 to R155). -/
def withData (s : State) (i : Instr) (len : Nat) (body : State → State) : Result :=
  match rangeFault s.I.toNat len with
  | some a => raise s i .dataOutOfBounds (some a)
  | none => .next (body s.advance)

/-- Run `body` with the key number in V[x], else take KEY_INDEX_OUT_OF_RANGE (R160, R161). -/
def withKey (s : State) (i : Instr) (x : Reg) (body : Fin 16 → State → State) : Result :=
  if h : (s.readV x).toNat < 16 then .next (body ⟨(s.readV x).toNat, h⟩ s.advance)
  else raise s i .keyIndexOutOfRange (some (s.readV x).toNat)

/-! ## The stack -/

/-- Push `w` and go on, or take STACK_OVERFLOW when SP = 16 (R27, R103). SP above 16 is no state of the machine
(log 7). -/
def withPush (s : State) (i : Instr) (w : Word) (body : State → State) : Result :=
  if h : s.SP.toNat < 16 then
    .next (body (((s.advance).setStack ⟨s.SP.toNat, h⟩ w).setSP (s.SP + 1)))
  else if s.SP.toNat = 16 then raise s i .stackOverflow none
  else .fault .stackPointerOutOfRange

/-- Pop a word and go on with it, or take STACK_UNDERFLOW when SP = 0 (R27, R101). The popped entry keeps its value
(D12). -/
def withPop (s : State) (i : Instr) (body : Word → State → State) : Result :=
  if s.SP.toNat = 0 then raise s i .stackUnderflow none
  else if h : s.SP.toNat - 1 < 16 then
    .next (body (s.stack[s.SP.toNat - 1]) ((s.advance).setSP (s.SP - 1)))
  else .fault .stackPointerOutOfRange

/-! ## The keys -/

/-- The least pressed key, scanning 0 to 15 (R163). -/
def State.leastKey (s : State) : Option (Fin 16) := (List.finRange 16).find? (fun k => s.key[k])

/-! ## The framebuffer -/

/-- The index of cell (x, y), the coordinates taken modulo the screen's size (R31, R122, R126). -/
def cellIndex (x y : Nat) : Fin 2048 := ⟨(y % 32) * 64 + x % 64, by omega⟩

/-- `disp[c]` (R31). -/
def Display.cell (d : Display) (c : Fin 2048) : Bool := d[c.val / 64].getLsbD (c.val % 64)

/-- `disp[c] <- disp[c] ^ 1`. -/
def Display.toggle (d : Display) (c : Fin 2048) : Display :=
  d.set (c.val / 64) (d[c.val / 64] ^^^ BitVec.twoPow 64 (c.val % 64))

/-- Toggle one cell; the flag turns on when the cell was lit (R122). -/
def toggleCell (x y : Nat) (acc : Display × Bool) : Display × Bool :=
  (acc.1.toggle (cellIndex x y), acc.2 || acc.1.cell (cellIndex x y))

/-- Every cell unlit (R121). -/
def Display.clear : Display := Vector.replicate 32 0

/-- Columns `c` to 7 of one sprite row: column c is bit 7 - c, most significant bit first (R122). -/
def drawColumns (row : Byte) (ox y : Nat) : List Nat → Display × Bool → Display × Bool
  | [], acc => acc
  | c :: cs, acc =>
    drawColumns row ox y cs (if row.getLsbD (7 - c) then toggleCell (ox + c) y acc else acc)

/-- The rows of a sprite, the first at `oy` (R122). -/
def drawRows (ox : Nat) : Nat → List Byte → Display × Bool → Display × Bool
  | _, [], acc => acc
  | oy, row :: rows, acc => drawRows ox (oy + 1) rows (drawColumns row ox oy (List.range 8) acc)

end Sys2Proof.Machine
end

