-- ==== Sys2Proof/Machine/Operands.lean ====
section
/-! DEFINITION. The operand forms: extended immediates, effective addresses, register lists, decimal digits
(30_encoding.md rule R72, 44_index_memory.md rules R153 to R156). A register operand is `State.readV`. -/

namespace Sys2Proof.Machine

/-- `zext_16(nnn)` (R8, R72). -/
def zextAddr (nnn : BitVec 12) : Word := nnn.setWidth 16

/-- `zext_16(V[x])` (R8). -/
def zextByte (b : Byte) : Word := b.setWidth 16

/-- The flag value 0 or 1 (R22). -/
def flagByte (f : Bool) : Byte := if f then 1 else 0

/-- The effective address I + k: an exact natural (R52, R156). -/
def State.ea (s : State) (k : Nat) : Nat := s.I.toNat + k

/-- V0..Vx, the register list of Fx55 (R154). -/
def State.regsThrough (s : State) (x : Reg) : List Byte := s.V.toList.take (x.val + 1)

/-- The registers after V0..Vx are loaded from I (R155). -/
def State.loadedRegs (s : State) (x : Reg) : Vector Byte 16 :=
  Vector.ofFn fun k => if k ≤ x then s.readByte (s.ea k.val) else s.readV k

/-- The hundreds, tens and ones digits of a byte (R153). -/
def decimalDigits (v : Byte) : List Byte := [v / 100, (v / 10) % 10, v % 10]

end Sys2Proof.Machine
end

