-- ==== Sys2Proof/Machine/Flags.lean ====
section
/-! DEFINITION. The flag computations and the flagged write-back (43_alu.md rules R130, R131, R138 to R142). -/

namespace Sys2Proof.Machine

/-- The flagged write-back: two writes whose order is VF_WRITE_ORDER (R130). -/
def State.writeFlagged (s : State) (x : Reg) (result : Byte) (flag : Bool) : State :=
  match s.params.vfWriteOrder with
  | .flagLast => (s.writeV x result).writeV VF (flagByte flag)
  | .resultLast => (s.writeV VF (flagByte flag)).writeV x result

/-- The 8-bit sum, and whether the exact sum exceeds 255 (R138). -/
def addCarry (a b : Byte) : Byte × Bool := (a + b, decide (255 < a.toNat + b.toNat))

/-- The 8-bit difference a - b, and "no borrow": a >= b (R139, R141). -/
def subNoBorrow (a b : Byte) : Byte × Bool := (a - b, decide (b.toNat ≤ a.toNat))

/-- The right shift by one, and the bit shifted out (R140). -/
def shiftRight (v : Byte) : Byte × Bool := (v >>> 1, v.getLsbD 0)

/-- The left shift by one, and the bit shifted out (R142). -/
def shiftLeft (v : Byte) : Byte × Bool := (v <<< 1, v.getLsbD 7)

/-- 8xy2 under each ALU_VARIANT (R131, R136). -/
def aluAnd (variant : Config.AluVariant) (a b : Byte) : Byte :=
  match variant with
  | .asImplemented => a ||| b
  | .conventional => a &&& b

/-- 8xy3 under each ALU_VARIANT (R131, R137). -/
def aluXor (variant : Config.AluVariant) (a b : Byte) : Byte :=
  match variant with
  | .asImplemented => a ||| b
  | .conventional => a ^^^ b

/-- 8xy5 under each ALU_VARIANT (R131, R139). -/
def aluSub (variant : Config.AluVariant) (a b : Byte) : Byte × Bool :=
  match variant with
  | .asImplemented => addCarry a b
  | .conventional => subNoBorrow a b

end Sys2Proof.Machine
end

