-- ==== Sys2Proof/Machine/Alu.lean ====
section
/-! DEFINITION. The meanings of the register and ALU instructions (43_alu.md). Operands are read from `s`, before any
write (R94). -/

namespace Sys2Proof.Machine

/-- R132. -/
def execLdImm (x : Reg) (nn : Byte) (s : State) : Result := .next (s.advance.writeV x nn)

/-- R133. No flag is written. -/
def execAddImm (x : Reg) (nn : Byte) (s : State) : Result := .next (s.advance.writeV x (s.readV x + nn))

/-- R134. -/
def execLdReg (x y : Reg) (s : State) : Result := .next (s.advance.writeV x (s.readV y))

/-- R135. OR under both ALU_VARIANT values; no flag. -/
def execOrReg (x y : Reg) (s : State) : Result := .next (s.advance.writeV x (s.readV x ||| s.readV y))

/-- R136. -/
def execAndReg (x y : Reg) (s : State) : Result :=
  .next (s.advance.writeV x (aluAnd s.params.aluVariant (s.readV x) (s.readV y)))

/-- R137. -/
def execXorReg (x y : Reg) (s : State) : Result :=
  .next (s.advance.writeV x (aluXor s.params.aluVariant (s.readV x) (s.readV y)))

/-- R138. -/
def execAddReg (x y : Reg) (s : State) : Result :=
  let r := addCarry (s.readV x) (s.readV y)
  .next (s.advance.writeFlagged x r.1 r.2)

/-- R139. -/
def execSubReg (x y : Reg) (s : State) : Result :=
  let r := aluSub s.params.aluVariant (s.readV x) (s.readV y)
  .next (s.advance.writeFlagged x r.1 r.2)

/-- R140. The y field is ignored: Vy is not read. -/
def execShr (x _y : Reg) (s : State) : Result :=
  let r := shiftRight (s.readV x)
  .next (s.advance.writeFlagged x r.1 r.2)

/-- R141. -/
def execSubn (x y : Reg) (s : State) : Result :=
  let r := subNoBorrow (s.readV y) (s.readV x)
  .next (s.advance.writeFlagged x r.1 r.2)

/-- R142. The y field is ignored: Vy is not read. -/
def execShl (x _y : Reg) (s : State) : Result :=
  let r := shiftLeft (s.readV x)
  .next (s.advance.writeFlagged x r.1 r.2)

/-- R143. The draw is free (log 3). -/
def execRnd (x : Reg) (nn : Byte) (s : State) : Result :=
  let d := s.advance.drawRnd
  .next (d.2.writeV x (d.1 &&& nn))

end Sys2Proof.Machine
end

