-- ==== Sys2Proof/Machine/Control.lean ====
section
/-! DEFINITION. The meanings of the control flow instructions (41_control_flow.md). Each takes the state before the
fetch advance and advances pc itself (log 5). -/

namespace Sys2Proof.Machine

/-- R100. -/
def execNop (s : State) : Result := .next s.advance

/-- R101. The popped value is used as stored: not masked, not checked. -/
def execRet (s : State) : Result := withPop s .ret fun w t => t.setPc w

/-- R102. -/
def execJp (nnn : BitVec 12) (s : State) : Result := .next (s.advance.setPc (zextAddr nnn))

/-- R103. The pushed word is the advanced pc. -/
def execCall (nnn : BitVec 12) (s : State) : Result :=
  withPush s (.call nnn) s.advance.pc fun t => t.setPc (zextAddr nnn)

/-- R104. -/
def execSeImm (x : Reg) (nn : Byte) (s : State) : Result := .next (s.advance.skipIf (s.readV x == nn))

/-- R105. -/
def execSneImm (x : Reg) (nn : Byte) (s : State) : Result := .next (s.advance.skipIf (s.readV x != nn))

/-- R106. -/
def execSeReg (x y : Reg) (s : State) : Result := .next (s.advance.skipIf (s.readV x == s.readV y))

/-- R107. -/
def execSneReg (x y : Reg) (s : State) : Result := .next (s.advance.skipIf (s.readV x != s.readV y))

/-- R108. The sum is not masked to 12 bits. -/
def execJpV0 (nnn : BitVec 12) (s : State) : Result :=
  .next (s.advance.setPc (zextByte (s.readV V0) + zextAddr nnn))

end Sys2Proof.Machine
end

