-- ==== Sys2Proof/Machine/Framebuffer.lean ====
section
/-! DEFINITION. The meanings of the display instructions (42_display.md). -/

namespace Sys2Proof.Machine

/-- R121. VF is unchanged. -/
def execCls (s : State) : Result := .next (s.advance.setDisp Display.clear)

/-- R122, and R123 for n = 0. The origin and the rows are read before anything is written; VF is the collision flag,
whatever x and y are. -/
def execDrw (x y : Reg) (n : Nat) (s : State) : Result :=
  withData s (.drw x y n) n fun t =>
    let drawn := drawRows (s.readV x).toNat (s.readV y).toNat (s.readBytes (s.ea 0) n) (s.disp, false)
    (t.setDisp drawn.1).writeV VF (flagByte drawn.2)

end Sys2Proof.Machine
end

