-- ==== Sys2Proof/Machine/IndexMem.lean ====
section
/-! DEFINITION. The meanings of the index register and memory instructions (44_index_memory.md). -/

namespace Sys2Proof.Machine

/-- R150. -/
def execLdI (nnn : BitVec 12) (s : State) : Result := .next (s.advance.setI (zextAddr nnn))

/-- R151. Modulo 65536; no flag. -/
def execAddI (x : Reg) (s : State) : Result := .next (s.advance.setI (s.I + zextByte (s.readV x)))

/-- R152. No masking of V[x]. -/
def execLdF (x : Reg) (s : State) : Result := .next (s.advance.setI (zextByte (s.readV x) * 5))

/-- R153. -/
def execLdB (x : Reg) (s : State) : Result :=
  withData s (.ldB x) 3 fun t => t.storeBytes (s.ea 0) (decimalDigits (s.readV x))

/-- R154. I is unchanged. -/
def execLdMemVx (x : Reg) (s : State) : Result :=
  withData s (.ldMemVx x) (x.val + 1) fun t => t.storeBytes (s.ea 0) (s.regsThrough x)

/-- R155. I is unchanged. -/
def execLdVxMem (x : Reg) (s : State) : Result :=
  withData s (.ldVxMem x) (x.val + 1) fun t => t.setV (s.loadedRegs x)

end Sys2Proof.Machine
end

