-- ==== Sys2Proof/Machine/KeysTimers.lean ====
section
/-! DEFINITION. The meanings of the key and timer instructions (45_keys_timers.md). -/

namespace Sys2Proof.Machine

/-- R160. -/
def execSkp (x : Reg) (s : State) : Result := withKey s (.skp x) x fun k t => t.skipIf s.key[k]

/-- R161. -/
def execSknp (x : Reg) (s : State) : Result := withKey s (.sknp x) x fun k t => t.skipIf (!s.key[k])

/-- R162. -/
def execLdVxDT (x : Reg) (s : State) : Result := .next (s.advance.writeV x s.DT)

/-- R163. With no key pressed, pc goes back to the instruction itself and nothing else changes. -/
def execLdVxK (x : Reg) (s : State) : Result :=
  match s.leastKey with
  | some k => .next (s.advance.writeV x (BitVec.ofNat 8 k.val))
  | none => .next (s.advance.setPc (s.advance.pc - 2))

/-- R164. -/
def execLdDTVx (x : Reg) (s : State) : Result := .next (s.advance.setDT (s.readV x))

/-- R165. -/
def execLdSTVx (x : Reg) (s : State) : Result := .next (s.advance.setST (s.readV x))

end Sys2Proof.Machine
end

