-- ==== Sys2Proof/Machine/Fetch.lean ====
section
/-! DEFINITION. The body of STEP (40_fetch_decode.md rule R90), and placing a word where it is fetched. -/

namespace Sys2Proof.Machine

/-- Fetch, decode, execute in a RUNNING core (R90 to R94). An execute that faults takes the fault itself; a fetch out of
range and a word that matches no row are taken here. -/
def stepRunning (s : State) : Result :=
  match s.fetch with
  | .error a => .next (s.enterFault .fetchOutOfBounds none (some a))
  | .ok op =>
    match decodeWord op with
    | .error _ => .next (s.enterFault .unimplementedOpcode (some op) none)
    | .ok i => exec i s

/-- STEP: a HALTED core changes nothing (R90, R96). -/
def stepState (s : State) : Result :=
  match s.status with
  | .halted _ => .next s
  | .running => stepRunning s

/-- What STEP returns to the host, read from the state it leaves: OK, or FAULT(record) (R90, R96; log 4). -/
def State.stepReturn (s : State) : Option FaultRecord :=
  match s.status with
  | .halted r => some r
  | .running => none

/-- A state from which the next STEP fetches at an address that exists: pc as it is where both its bytes are in range,
else the program base; status RUNNING (log 9). -/
def State.fetchReady (s : State) : State :=
  (if s.pc.toNat + 1 < Config.memSize then s else s.setPc (BitVec.ofNat 16 Config.programBase)).setStatus .running

/-- Store a word at pc, the high byte at the lower address (R53). -/
def State.placeWord (s : State) (w : Word) : State :=
  s.storeBytes s.pc.toNat [highByte w, lowByte w]

end Sys2Proof.Machine
end

