-- ==== Sys2Proof/Machine/Step.lean ====
section
/-! DEFINITION. One step of the machine: the STEP transaction (40_fetch_decode.md rule R90). -/

namespace Sys2Proof.Machine

/-- STEP. Its random input is the next free draw (log 3); what it returns to the host is `State.stepReturn` of the
state it answers. -/
def step (s : State) : Host.Outcome State Fault Refusal := stepState s

/-- The state with an instruction word stored where `step` fetches its next instruction. -/
def State.withFetchWord (s : State) (nbits w : Nat) : State :=
  s.fetchReady.placeWord (BitVec.ofNat 16 (w % 2 ^ nbits))

end Sys2Proof.Machine
end

