-- ==== Sys2Proof/Machine/Transactions.lean ====
section
/-! DEFINITION. The host's transactions (00_scope.md rule R6) beside STEP: INITIALIZE is `State.initial`, RESET is
`State.resetCore`. The host orders them as it likes (70_reset_and_hazards.md rule R209; log 10). -/

namespace Sys2Proof.Machine

/-- The errors of host transactions, which are not core faults (60_exceptions.md rule R175). -/
inductive HostError where
  /-- LOAD of an image that does not fit (R202). -/
  | loadOutOfBounds
  /-- KEY with an index outside 0..15 (R184). -/
  | keyIndexRejected
deriving DecidableEq, Repr

/-- LOAD(bytes): all or nothing, from 0x200, in either status (R202). -/
def State.load (s : State) (bytes : List Byte) : Except HostError State :=
  if Config.programBase + bytes.length > Config.memSize then .error .loadOutOfBounds
  else .ok (s.storeBytes Config.programBase bytes)

/-- A timer counts down and stops at zero (R179, R180). -/
def countDown (t : Byte) : Byte := if t = 0 then 0 else t - 1

/-- TICK(): sound_end, and the state with both timers counted down; in either status (R180, R181). -/
def State.tick (s : State) : Bool × State :=
  (s.ST == 1, (s.setDT (countDown s.DT)).setST (countDown s.ST))

/-- KEY(index, pressed), in either status (R184). -/
def State.keyPress (s : State) (index : Nat) (pressed : Bool) : Except HostError State :=
  if h : index < 16 then .ok (s.setKey ⟨index, h⟩ pressed) else .error .keyIndexRejected

/-- DISPLAY: a copy of the 2048 cells (R127). -/
def State.display (s : State) : Display := s.disp

/-- Cell (x, y) of the framebuffer (R31, R120). -/
def State.cell (s : State) (x y : Nat) : Bool := s.disp.cell (cellIndex x y)

/-- The level output sound_active (R183). -/
def State.soundActive (s : State) : Bool := s.ST != 0

/-- A transaction as the host asks for it (R6). INITIALIZE makes a state and stands before any list of these. -/
inductive Transaction where
  | step
  | tick
  | key (index : Nat) (pressed : Bool)
  | load (bytes : List Byte)
  | reset
  | display
deriving DecidableEq, Repr

/-- What a transaction returns to the host (R6). -/
inductive Reply where
  /-- STEP: OK, or FAULT(record). -/
  | stepped (fault : Option FaultRecord)
  /-- TICK: sound_end. -/
  | ticked (soundEnd : Bool)
  /-- LOAD, KEY, RESET: OK. -/
  | ok
  /-- LOAD, KEY: the host error; the state is unchanged. -/
  | failed (e : HostError)
  /-- DISPLAY: the cells. -/
  | cells (d : Display)
deriving DecidableEq, Repr

/-- A host error leaves the state as it was (R175). -/
def State.replyTo (s : State) : Except HostError State → Reply × State
  | .ok t => (.ok, t)
  | .error e => (.failed e, s)

/-- One transaction: its reply and the state after it. -/
def transact (s : State) : Transaction → Host.Outcome (Reply × State) Fault Refusal
  | .step =>
    match step s with
    | .next t => .next (.stepped t.stepReturn, t)
    | .fault f => .fault f
    | .refused r => .refused r
  | .tick => .next (.ticked s.tick.1, s.tick.2)
  | .key index pressed => .next (s.replyTo (s.keyPress index pressed))
  | .load bytes => .next (s.replyTo (s.load bytes))
  | .reset => .next (.ok, s.resetCore)
  | .display => .next (.cells s.display, s)

/-- The state after a list of transactions, in the total order the host chose (R60, R209). -/
def runHost : State → List Transaction → Result
  | s, [] => .next s
  | s, t :: ts =>
    match transact s t with
    | .next (_, s') => runHost s' ts
    | .fault f => .fault f
    | .refused r => .refused r

end Sys2Proof.Machine
end

