-- ==== Sys2Proof/Safety.lean ====
section
/-! DEFINITION. The terms claims are stated in: what a state may differ in, the invariant of the machine, and how a
run stands (60_exceptions.md rule R189). -/

namespace Sys2Proof.Machine

/-- One observable piece of the state: what the access matrix of R37 speaks of, cell by cell. -/
inductive Part where
  | reg (x : Reg)
  | pc
  | index
  | stackSlot (k : Fin 16)
  | sp
  | delay
  | sound
  | key (k : Fin 16)
  | cell (c : Fin 2048)
  | byte (a : Nat)
  | status
  | draws
  | params
deriving DecidableEq, Repr

/-- Two states agree on a part; on a byte of memory, when reading it gives the same. -/
def Part.same (s t : State) : Part → Prop
  | .reg x => t.readV x = s.readV x
  | .pc => t.pc = s.pc
  | .index => t.I = s.I
  | .stackSlot k => t.stack[k] = s.stack[k]
  | .sp => t.SP = s.SP
  | .delay => t.DT = s.DT
  | .sound => t.ST = s.ST
  | .key k => t.key[k] = s.key[k]
  | .cell c => t.disp.cell c = s.disp.cell c
  | .byte a => t.readByte a = s.readByte a
  | .status => t.status = s.status
  | .draws => t.draws = s.draws
  | .params => t.params = s.params

/-- The frame: every part of the state outside `may` is as it was. -/
def ChangesOnly (may : Part → Prop) (s t : State) : Prop := ∀ p, ¬ may p → p.same s t

/-- The shape of a record of each kind: which of opcode and addr it holds, and their ranges (R33, R170). -/
def FaultRecord.wf (r : FaultRecord) : Prop :=
  match r.kind, r.opcode, r.addr with
  | .unimplementedOpcode, some op, none => decodeWord op = .error (.unimplementedOpcode op)
  | .stackOverflow, some op, none => ∃ nnn, op = encode (.call nnn)
  | .stackUnderflow, some op, none => op = encode .ret
  | .fetchOutOfBounds, none, some a => 4095 ≤ r.pc.toNat ∧ a = max r.pc.toNat 4096
  | .dataOutOfBounds, some _, some a => 4096 ≤ a
  | .keyIndexOutOfRange, some _, some k => 16 ≤ k ∧ k ≤ 255
  | _, _, _ => False

/-- A HALTED core keeps its record: well formed, and pc still at the faulting instruction (R95, R173). -/
def State.statusWf (s : State) : Prop :=
  ∀ r, s.status = .halted r → r.pc = s.pc ∧ r.wf

/-- The invariant of the machine: memory in canonical form, SP in 0..16 (R27), every stack entry an advanced pc and pc
within what instructions can reach (R24), and the record as a fault left it. -/
structure State.Inv (s : State) : Prop where
  mem    : Memory.wf s.params s.mem
  sp     : s.SP.toNat ≤ 16
  stack  : ∀ k : Fin 16, s.stack[k].toNat ≤ 0x1000
  pc     : s.pc.toNat ≤ 0x10FE
  status : s.statusWf

/-- How a run stands (R189). -/
inductive RunEnd where
  /-- STEP has returned FAULT: final. -/
  | faulted (r : FaultRecord)
  /-- The instruction at pc is 1nnn with nnn = pc: the stop idiom. -/
  | selfJump
  /-- The instruction at pc is Fx0A and no key is pressed. -/
  | waitsForKey
  /-- Still going. -/
  | going
deriving DecidableEq, Repr

/-- R189. -/
def State.runEnd (s : State) : RunEnd :=
  match s.status with
  | .halted r => .faulted r
  | .running =>
    match s.fetch with
    | .error _ => .going
    | .ok op =>
      match decodeWord op with
      | .ok (.jp nnn) => if zextAddr nnn = s.pc then .selfJump else .going
      | .ok (.ldVxK _) => if s.leastKey = none then .waitsForKey else .going
      | _ => .going

/-- Two states that agree but for the stack entries at and above SP, which a program cannot observe (R35). -/
def SameButStaleStack (s t : State) : Prop :=
  { t with stack := s.stack } = s ∧ ∀ k : Fin 16, k.val < s.SP.toNat → t.stack[k] = s.stack[k]

/-! ## What instructions may change and what they read (10_state.md rule R37) -/

/-- The "written by" column of R37, cell by cell: the parts an instruction may change in state `s`, a fault apart. -/
def mayChange (s : State) : Instr → Part → Prop
  | .nop | .jp _ | .jpV0 _ | .seImm _ _ | .sneImm _ _ | .seReg _ _ | .sneReg _ _ | .skp _ | .sknp _ =>
    fun p => p = .pc
  | .cls => fun p => p = .pc ∨ ∃ c, p = .cell c
  | .ret => fun p => p = .pc ∨ p = .sp
  | .call _ => fun p => p = .pc ∨ p = .sp ∨ ∃ k : Fin 16, k.val = s.SP.toNat ∧ p = .stackSlot k
  | .ldImm x _ | .addImm x _ | .ldReg x _ | .orReg x _ | .andReg x _ | .xorReg x _ | .ldVxDT x | .ldVxK x =>
    fun p => p = .pc ∨ p = .reg x
  | .addReg x _ | .subReg x _ | .shr x _ | .subn x _ | .shl x _ => fun p => p = .pc ∨ p = .reg x ∨ p = .reg VF
  | .rnd x _ => fun p => p = .pc ∨ p = .reg x ∨ p = .draws
  | .drw _ _ _ => fun p => p = .pc ∨ p = .reg VF ∨ ∃ c, p = .cell c
  | .ldI _ | .addI _ | .ldF _ => fun p => p = .pc ∨ p = .index
  | .ldB _ => fun p => p = .pc ∨ ∃ k, k < 3 ∧ p = .byte (s.ea k)
  | .ldMemVx x => fun p => p = .pc ∨ ∃ k, k ≤ x.val ∧ p = .byte (s.ea k)
  | .ldVxMem x => fun p => p = .pc ∨ ∃ k, k ≤ x ∧ p = .reg k
  | .ldDTVx _ => fun p => p = .pc ∨ p = .delay
  | .ldSTVx _ => fun p => p = .pc ∨ p = .sound

/-- The "read by" column of R37, cell by cell: the parts whose value the execute phase of an instruction may depend on
in state `s`, beside pc, which every instruction reads. ST and status stand in no instruction's row ("none", "host
only"), and only Cxnn observes the draw (R35). -/
def mayRead (s : State) : Instr → Part → Prop
  | .nop | .cls | .jp _ | .ldImm _ _ | .ldI _ => fun _ => False
  | .ret => fun p => p = .sp ∨ ∃ k : Fin 16, k.val + 1 = s.SP.toNat ∧ p = .stackSlot k
  | .call _ => fun p => p = .sp
  | .jpV0 _ => fun p => p = .reg V0
  | .seImm x _ | .sneImm x _ | .addImm x _ | .shr x _ | .shl x _ | .ldF x | .ldDTVx x | .ldSTVx x =>
    fun p => p = .reg x
  | .ldReg _ y => fun p => p = .reg y
  | .seReg x y | .sneReg x y | .orReg x y | .andReg x y | .xorReg x y | .addReg x y | .subReg x y | .subn x y =>
    fun p => p = .reg x ∨ p = .reg y
  | .rnd _ _ => fun p => p = .draws
  | .drw x y n => fun p =>
    p = .reg x ∨ p = .reg y ∨ p = .index ∨ (∃ c, p = .cell c) ∨ ∃ k, k < n ∧ p = .byte (s.ea k)
  | .skp x | .sknp x => fun p => p = .reg x ∨ ∃ k : Fin 16, k.val = (s.readV x).toNat ∧ p = .key k
  | .ldVxDT _ => fun p => p = .delay
  | .ldVxK _ => fun p => ∃ k, p = .key k
  | .addI x | .ldB x => fun p => p = .reg x ∨ p = .index
  | .ldMemVx x => fun p => p = .index ∨ ∃ k, k ≤ x ∧ p = .reg k
  | .ldVxMem x => fun p => p = .index ∨ ∃ k, k ≤ x.val ∧ p = .byte (s.ea k)

/-- Two results agree outside some parts: both are next states that differ in those parts only, or both stop alike. -/
def AgreeOutside (may : Part → Prop) : Result → Result → Prop
  | .next s, .next t => ChangesOnly may s t
  | .fault f, .fault g => f = g
  | .refused r, .refused q => r = q
  | _, _ => False

/-! ## Drawing -/

/-- A set bit of the sprite at I falls on cell (cx, cy): row r, column c, bit 7 - c, the origin V[x], V[y], both
coordinates modulo the screen's size (R122). -/
def Covers (s : State) (x y : Reg) (n cx cy : Nat) : Prop :=
  ∃ r c, r < n ∧ c < 8 ∧ (s.readByte (s.I.toNat + r)).getLsbD (7 - c) = true ∧
    ((s.readV x).toNat + c) % 64 = cx ∧ ((s.readV y).toNat + r) % 32 = cy

/-! ## The flagged write-back -/

/-- What R130 says of a next state `t` for a result (an exact natural, reduced to 8 bits) and a flag: both registers
when x is not F, and by VF_WRITE_ORDER when it is; the frame beside. -/
def FlaggedEffect (s t : State) (x : Reg) (result : Nat) (flag : Prop) : Prop :=
  (x ≠ VF → (t.readV x).toNat = result % 256 ∧ (flag → t.readV VF = 1) ∧ (¬ flag → t.readV VF = 0)) ∧
  (x = VF → s.params.vfWriteOrder = .flagLast → (flag → t.readV VF = 1) ∧ (¬ flag → t.readV VF = 0)) ∧
  (x = VF → s.params.vfWriteOrder = .resultLast → (t.readV VF).toNat = result % 256) ∧
  t.pc = s.pc + 2 ∧ ChangesOnly (fun p => p = .pc ∨ p = .reg x ∨ p = .reg VF) s t

end Sys2Proof.Machine
end

