-- ==== Sys2Proof/Certificates/Slice0/Obligations.lean ====
section
/-! DEFINITION. The statements for the provers. `exec i s` takes the state before the fetch advance (log 5). -/

open Sys2Proof Sys2Proof.Machine

/-! ## Control flow (41_control_flow.md) -/

/-- R100: "The only effect is the fetch advance". -/
def Obligations.NopOnlyAdvances : Prop :=
  ∀ s : State, ∃ t, exec .nop s = .next t ∧ t.pc = s.pc + 2 ∧ ChangesOnly (fun p => p = .pc) s t

/-- R102, R108: the targets as exact naturals, and nothing else changes. -/
def Obligations.JumpsSetOnlyPc : Prop :=
  ∀ (s : State) (nnn : BitVec 12),
    (∃ t, exec (.jp nnn) s = .next t ∧ t.pc.toNat = nnn.toNat ∧ ChangesOnly (fun p => p = .pc) s t) ∧
    (∃ t, exec (.jpV0 nnn) s = .next t ∧ t.pc.toNat = (s.readV 0).toNat + nnn.toNat ∧
      ChangesOnly (fun p => p = .pc) s t)

/-- R104 to R107: pc0 + 4 when the condition holds, pc0 + 2 when not; whatever word is skipped. -/
def Obligations.SkipsMovePcByTheirCondition : Prop :=
  ∀ (s : State) (x y : Reg) (nn : Byte),
    (∃ t, exec (.seImm x nn) s = .next t ∧ (s.readV x = nn → t.pc = s.pc + 4) ∧
      (s.readV x ≠ nn → t.pc = s.pc + 2) ∧ ChangesOnly (fun p => p = .pc) s t) ∧
    (∃ t, exec (.sneImm x nn) s = .next t ∧ (s.readV x ≠ nn → t.pc = s.pc + 4) ∧
      (s.readV x = nn → t.pc = s.pc + 2) ∧ ChangesOnly (fun p => p = .pc) s t) ∧
    (∃ t, exec (.seReg x y) s = .next t ∧ (s.readV x = s.readV y → t.pc = s.pc + 4) ∧
      (s.readV x ≠ s.readV y → t.pc = s.pc + 2) ∧ ChangesOnly (fun p => p = .pc) s t) ∧
    (∃ t, exec (.sneReg x y) s = .next t ∧ (s.readV x ≠ s.readV y → t.pc = s.pc + 4) ∧
      (s.readV x = s.readV y → t.pc = s.pc + 2) ∧ ChangesOnly (fun p => p = .pc) s t)

/-- R103: pushes pc0 + 2 at the slot SP names; STACK_OVERFLOW at SP = 16, with nothing else changed. -/
def Obligations.CallPushesTheReturnAddress : Prop :=
  ∀ (s : State) (nnn : BitVec 12),
    (∀ k : Fin 16, k.val = s.SP.toNat →
      ∃ t, exec (.call nnn) s = .next t ∧ t.pc.toNat = nnn.toNat ∧ t.SP.toNat = s.SP.toNat + 1 ∧
        t.stack[k] = s.pc + 2 ∧ ChangesOnly (fun p => p = .pc ∨ p = .sp ∨ p = .stackSlot k) s t) ∧
    (s.SP.toNat = 16 → ∃ t, exec (.call nnn) s = .next t ∧
      t.status = .halted ⟨.stackOverflow, s.pc, some (encode (.call nnn)), none⟩ ∧
      ChangesOnly (fun p => p = .status) s t)

/-- R101: pops the newest entry into pc and keeps the entry; STACK_UNDERFLOW at SP = 0, with nothing else changed. -/
def Obligations.RetPopsTheReturnAddress : Prop :=
  ∀ s : State,
    (∀ k : Fin 16, k.val + 1 = s.SP.toNat →
      ∃ t, exec .ret s = .next t ∧ t.pc = s.stack[k] ∧ t.SP.toNat = k.val ∧
        ChangesOnly (fun p => p = .pc ∨ p = .sp) s t) ∧
    (s.SP.toNat = 0 → ∃ t, exec .ret s = .next t ∧
      t.status = .halted ⟨.stackUnderflow, s.pc, some 0x00EE, none⟩ ∧ ChangesOnly (fun p => p = .status) s t)

/-- R101 with R103: after CALL, a RET from any state with the same stack and SP (what a subroutine leaves) goes on
after the CALL, with SP as it was before it. -/
def Obligations.RetReturnsBehindTheCall : Prop :=
  ∀ (s : State) (nnn : BitVec 12), s.SP.toNat < 16 →
    ∃ t, exec (.call nnn) s = .next t ∧
      ∀ t' : State, t'.stack = t.stack → t'.SP = t.SP →
        ∃ u, exec .ret t' = .next u ∧ u.pc = s.pc + 2 ∧ u.SP = s.SP

/-! ## Display (42_display.md) -/

/-- R121: every cell is 0 and VF is unchanged. -/
def Obligations.ClsClearsEveryCell : Prop :=
  ∀ s : State, ∃ t, exec .cls s = .next t ∧ (∀ c : Fin 2048, t.disp.cell c = false) ∧ t.pc = s.pc + 2 ∧
    ChangesOnly (fun p => p = .pc ∨ ∃ c, p = .cell c) s t

/-- R122: each covered cell is toggled and no other, VF is the collision flag, and a sprite that leaves memory takes
DATA_OUT_OF_BOUNDS with display and VF unchanged. -/
def Obligations.DrawTogglesTheCoveredCells : Prop :=
  ∀ (s : State) (x y : Reg) (n : Nat), n ≤ 15 →
    ((n = 0 ∨ s.I.toNat + n ≤ 4096) → ∃ t, exec (.drw x y n) s = .next t ∧
      (∀ cx cy, cx < 64 → cy < 32 → (t.cell cx cy = true ↔ ¬ (s.cell cx cy = true ↔ Covers s x y n cx cy))) ∧
      ((∃ cx cy, cx < 64 ∧ cy < 32 ∧ Covers s x y n cx cy ∧ s.cell cx cy = true) → t.readV VF = 1) ∧
      ((¬ ∃ cx cy, cx < 64 ∧ cy < 32 ∧ Covers s x y n cx cy ∧ s.cell cx cy = true) → t.readV VF = 0) ∧
      t.pc = s.pc + 2 ∧ ChangesOnly (fun p => p = .pc ∨ p = .reg VF ∨ ∃ c, p = .cell c) s t) ∧
    (n ≠ 0 → 4096 < s.I.toNat + n → ∃ t, exec (.drw x y n) s = .next t ∧
      t.status = .halted ⟨.dataOutOfBounds, s.pc, some (encode (.drw x y n)), some (max s.I.toNat 4096)⟩ ∧
      ChangesOnly (fun p => p = .status) s t)

/-- R123: with n = 0 nothing is read, so it completes for every I; no cell changes and VF <- 0. -/
def Obligations.DrawOfZeroRowsOnlyClearsVF : Prop :=
  ∀ (s : State) (x y : Reg), ∃ t, exec (.drw x y 0) s = .next t ∧ t.readV VF = 0 ∧ t.pc = s.pc + 2 ∧
    ChangesOnly (fun p => p = .pc ∨ p = .reg VF) s t

/-- R125: the same sprite drawn again at the same place restores the display, and the second draw reports a collision
exactly when the first draw lit a pixel. -/
def Obligations.DrawTwiceRestoresTheDisplay : Prop :=
  ∀ (s : State) (x y : Reg) (n : Nat), n ≤ 15 → (n = 0 ∨ s.I.toNat + n ≤ 4096) →
    ∃ t, exec (.drw x y n) s = .next t ∧
      ∀ s' : State, s'.disp = t.disp → s'.I = s.I → (∀ a, s'.readByte a = s.readByte a) →
        s'.readV x = s.readV x → s'.readV y = s.readV y →
        ∃ u, exec (.drw x y n) s' = .next u ∧ u.disp = s.disp ∧
          ((∃ c : Fin 2048, s.disp.cell c = false ∧ t.disp.cell c = true) → u.readV VF = 1) ∧
          ((¬ ∃ c : Fin 2048, s.disp.cell c = false ∧ t.disp.cell c = true) → u.readV VF = 0)

/-! ## Registers and ALU (43_alu.md) -/

/-- R132 to R135: the result in V[x], VF written only when it is the destination, nothing else changed. -/
def Obligations.RegisterResultsWithoutFlag : Prop :=
  ∀ (s : State) (x y : Reg) (nn : Byte),
    (∃ t, exec (.ldImm x nn) s = .next t ∧ t.readV x = nn ∧ t.pc = s.pc + 2 ∧
      ChangesOnly (fun p => p = .pc ∨ p = .reg x) s t) ∧
    (∃ t, exec (.addImm x nn) s = .next t ∧ (t.readV x).toNat = ((s.readV x).toNat + nn.toNat) % 256 ∧
      t.pc = s.pc + 2 ∧ ChangesOnly (fun p => p = .pc ∨ p = .reg x) s t) ∧
    (∃ t, exec (.ldReg x y) s = .next t ∧ t.readV x = s.readV y ∧ t.pc = s.pc + 2 ∧
      ChangesOnly (fun p => p = .pc ∨ p = .reg x) s t) ∧
    (∃ t, exec (.orReg x y) s = .next t ∧ t.readV x = s.readV x ||| s.readV y ∧ t.pc = s.pc + 2 ∧
      ChangesOnly (fun p => p = .pc ∨ p = .reg x) s t)

/-- R130, R138, R140 to R142: exact results, flags and the order of the two writes, under both orders. -/
def Obligations.FlaggedResultsUnderBothOrders : Prop :=
  ∀ (s : State) (x y : Reg) (a b : Nat), a = (s.readV x).toNat → b = (s.readV y).toNat →
    (∃ t, exec (.addReg x y) s = .next t ∧ FlaggedEffect s t x (a + b) (255 < a + b)) ∧
    (∃ t, exec (.shr x y) s = .next t ∧ FlaggedEffect s t x (a / 2) (a % 2 = 1)) ∧
    (∃ t, exec (.subn x y) s = .next t ∧ FlaggedEffect s t x (b + 256 - a) (a ≤ b)) ∧
    (∃ t, exec (.shl x y) s = .next t ∧ FlaggedEffect s t x (a * 2) (128 ≤ a))

/-- R136, R137, R139: the three instructions whose result depends on ALU_VARIANT, under both variants and both orders.
The spec marks which opcode is AND and which XOR (R131), and the CONVENTIONAL 8xy5 (R139), "[from general knowledge,
not in source]". -/
def Obligations.VariantResultsUnderBothVariants : Prop :=
  ∀ (s : State) (x y : Reg) (a b : Nat), a = (s.readV x).toNat → b = (s.readV y).toNat →
    (∃ t, exec (.andReg x y) s = .next t ∧
      (s.params.aluVariant = .asImplemented → t.readV x = s.readV x ||| s.readV y) ∧
      (s.params.aluVariant = .conventional → t.readV x = s.readV x &&& s.readV y) ∧ t.pc = s.pc + 2 ∧
      ChangesOnly (fun p => p = .pc ∨ p = .reg x) s t) ∧
    (∃ t, exec (.xorReg x y) s = .next t ∧
      (s.params.aluVariant = .asImplemented → t.readV x = s.readV x ||| s.readV y) ∧
      (s.params.aluVariant = .conventional → t.readV x = s.readV x ^^^ s.readV y) ∧ t.pc = s.pc + 2 ∧
      ChangesOnly (fun p => p = .pc ∨ p = .reg x) s t) ∧
    (∃ t, exec (.subReg x y) s = .next t ∧
      (s.params.aluVariant = .asImplemented → FlaggedEffect s t x (a + b) (255 < a + b)) ∧
      (s.params.aluVariant = .conventional → FlaggedEffect s t x (a + 256 - b) (b ≤ a)))

/-- R143 over the model's free draw: the draw stream and its counter are the model's choice (log 3); for every counter
value, V[x] is that draw AND nn, and the next draw is another one. -/
def Obligations.RndMasksAFreeDraw : Prop :=
  ∀ (s : State) (x : Reg) (nn : Byte), ∃ t, exec (.rnd x nn) s = .next t ∧
    t.readV x = Config.rndDraw s.draws &&& nn ∧ t.draws = s.draws + 1 ∧ t.pc = s.pc + 2 ∧
    ChangesOnly (fun p => p = .pc ∨ p = .reg x ∨ p = .draws) s t

/-! ## Index register and memory (44_index_memory.md) -/

/-- R150 to R152: I as an exact natural; no flag, no memory access. -/
def Obligations.IndexRegisterResults : Prop :=
  ∀ (s : State) (x : Reg) (nnn : BitVec 12),
    (∃ t, exec (.ldI nnn) s = .next t ∧ t.I.toNat = nnn.toNat ∧ t.pc = s.pc + 2 ∧
      ChangesOnly (fun p => p = .pc ∨ p = .index) s t) ∧
    (∃ t, exec (.addI x) s = .next t ∧ t.I.toNat = (s.I.toNat + (s.readV x).toNat) % 65536 ∧ t.pc = s.pc + 2 ∧
      ChangesOnly (fun p => p = .pc ∨ p = .index) s t) ∧
    (∃ t, exec (.ldF x) s = .next t ∧ t.I.toNat = (s.readV x).toNat * 5 ∧ t.pc = s.pc + 2 ∧
      ChangesOnly (fun p => p = .pc ∨ p = .index) s t)

/-- R153: the digits at I, I + 1, I + 2 and no other byte; DATA_OUT_OF_BOUNDS leaves memory unchanged. The digits read
back from a memory in canonical form, the model's invariant. -/
def Obligations.BcdStoresThreeDigits : Prop :=
  ∀ (s : State) (x : Reg),
    (Memory.wf s.params s.mem → s.I.toNat + 2 < 4096 → ∃ t, exec (.ldB x) s = .next t ∧
      (t.readByte s.I.toNat).toNat = (s.readV x).toNat / 100 ∧
      (t.readByte (s.I.toNat + 1)).toNat = (s.readV x).toNat / 10 % 10 ∧
      (t.readByte (s.I.toNat + 2)).toNat = (s.readV x).toNat % 10 ∧ t.pc = s.pc + 2 ∧
      ChangesOnly (fun p => p = .pc ∨ ∃ k, k < 3 ∧ p = .byte (s.ea k)) s t) ∧
    (4096 ≤ s.I.toNat + 2 → ∃ t, exec (.ldB x) s = .next t ∧
      t.status = .halted ⟨.dataOutOfBounds, s.pc, some (encode (.ldB x)), some (max s.I.toNat 4096)⟩ ∧
      ChangesOnly (fun p => p = .status) s t)

/-- R154: V0..Vx at I..I + x and no other byte, I unchanged; DATA_OUT_OF_BOUNDS leaves memory unchanged. -/
def Obligations.StoreRegistersToMemory : Prop :=
  ∀ (s : State) (x : Reg),
    (Memory.wf s.params s.mem → s.I.toNat + x.val < 4096 → ∃ t, exec (.ldMemVx x) s = .next t ∧
      (∀ k : Reg, k ≤ x → t.readByte (s.ea k.val) = s.readV k) ∧ t.pc = s.pc + 2 ∧
      ChangesOnly (fun p => p = .pc ∨ ∃ k, k ≤ x.val ∧ p = .byte (s.ea k)) s t) ∧
    (4096 ≤ s.I.toNat + x.val → ∃ t, exec (.ldMemVx x) s = .next t ∧
      t.status = .halted ⟨.dataOutOfBounds, s.pc, some (encode (.ldMemVx x)), some (max s.I.toNat 4096)⟩ ∧
      ChangesOnly (fun p => p = .status) s t)

/-- R155: the bytes at I..I + x in V0..Vx and no other register, I unchanged; DATA_OUT_OF_BOUNDS leaves the registers
unchanged. -/
def Obligations.LoadRegistersFromMemory : Prop :=
  ∀ (s : State) (x : Reg),
    (s.I.toNat + x.val < 4096 → ∃ t, exec (.ldVxMem x) s = .next t ∧
      (∀ k : Reg, k ≤ x → t.readV k = s.readByte (s.ea k.val)) ∧ t.pc = s.pc + 2 ∧
      ChangesOnly (fun p => p = .pc ∨ ∃ k, k ≤ x ∧ p = .reg k) s t) ∧
    (4096 ≤ s.I.toNat + x.val → ∃ t, exec (.ldVxMem x) s = .next t ∧
      t.status = .halted ⟨.dataOutOfBounds, s.pc, some (encode (.ldVxMem x)), some (max s.I.toNat 4096)⟩ ∧
      ChangesOnly (fun p => p = .status) s t)

/-- R154 with R155: what Fx55 stored, Fx65 loads back, from any later state with the same memory and I. -/
def Obligations.LoadRestoresWhatStoreSaved : Prop :=
  ∀ (s : State) (x : Reg), Memory.wf s.params s.mem → s.I.toNat + x.val < 4096 →
    ∃ t, exec (.ldMemVx x) s = .next t ∧
      ∀ t' : State, t'.I = t.I → (∀ a, t'.readByte a = t.readByte a) →
        ∃ u, exec (.ldVxMem x) t' = .next u ∧ ∀ k : Reg, k ≤ x → u.readV k = s.readV k

/-- R62: a word stored by Fx55 is the word the next fetch of its address reads, the lower byte's address first. -/
def Obligations.StoredBytesAreFetched : Prop :=
  ∀ (s : State) (x : Reg), Memory.wf s.params s.mem → 1 ≤ x.val → s.I.toNat + x.val < 4096 →
    ∃ t, exec (.ldMemVx x) s = .next t ∧
      ∀ t' : State, t'.pc = s.I → (∀ a, t'.readByte a = t.readByte a) →
        ∃ op, t'.fetch = .ok op ∧ op.toNat = (s.readV 0).toNat * 256 + (s.readV 1).toNat

/-! ## Keys and timers (45_keys_timers.md) -/

/-- R160, R161: the skip on a key, and KEY_INDEX_OUT_OF_RANGE when V[x] > 15. -/
def Obligations.KeySkipsTestOneKey : Prop :=
  ∀ (s : State) (x : Reg),
    (∀ k : Fin 16, (s.readV x).toNat = k.val →
      (∃ t, exec (.skp x) s = .next t ∧ (s.key[k] = true → t.pc = s.pc + 4) ∧
        (s.key[k] = false → t.pc = s.pc + 2) ∧ ChangesOnly (fun p => p = .pc) s t) ∧
      (∃ t, exec (.sknp x) s = .next t ∧ (s.key[k] = false → t.pc = s.pc + 4) ∧
        (s.key[k] = true → t.pc = s.pc + 2) ∧ ChangesOnly (fun p => p = .pc) s t)) ∧
    (15 < (s.readV x).toNat →
      (∃ t, exec (.skp x) s = .next t ∧ ChangesOnly (fun p => p = .status) s t ∧
        t.status = .halted ⟨.keyIndexOutOfRange, s.pc, some (encode (.skp x)), some (s.readV x).toNat⟩) ∧
      (∃ t, exec (.sknp x) s = .next t ∧ ChangesOnly (fun p => p = .status) s t ∧
        t.status = .halted ⟨.keyIndexOutOfRange, s.pc, some (encode (.sknp x)), some (s.readV x).toNat⟩))

/-- R162, R164, R165: the timers to and from a register; the level sound_active follows ST at once, and the next TICK
gives sound_end exactly when 1 was written. -/
def Obligations.TimerMoves : Prop :=
  ∀ (s : State) (x : Reg),
    (∃ t, exec (.ldVxDT x) s = .next t ∧ t.readV x = s.DT ∧ t.pc = s.pc + 2 ∧
      ChangesOnly (fun p => p = .pc ∨ p = .reg x) s t) ∧
    (∃ t, exec (.ldDTVx x) s = .next t ∧ t.DT = s.readV x ∧ t.pc = s.pc + 2 ∧
      ChangesOnly (fun p => p = .pc ∨ p = .delay) s t) ∧
    (∃ t, exec (.ldSTVx x) s = .next t ∧ t.ST = s.readV x ∧ (t.soundActive = true ↔ s.readV x ≠ 0) ∧
      (t.tick.1 = true ↔ s.readV x = 1) ∧ t.pc = s.pc + 2 ∧ ChangesOnly (fun p => p = .pc ∨ p = .sound) s t)

/-- R163: the lowest pressed key wins; with none pressed the instruction completes with nothing changed, pc included. -/
def Obligations.KeyWaitTakesTheLeastKey : Prop :=
  ∀ (s : State) (x : Reg),
    (∀ k : Fin 16, s.key[k] = true → (∀ j : Fin 16, j < k → s.key[j] = false) →
      ∃ t, exec (.ldVxK x) s = .next t ∧ (t.readV x).toNat = k.val ∧ t.pc = s.pc + 2 ∧
        ChangesOnly (fun p => p = .pc ∨ p = .reg x) s t) ∧
    ((∀ k : Fin 16, s.key[k] = false) → exec (.ldVxK x) s = .next s)

/-! ## Fetch, decode and the step (30_encoding.md, 40_fetch_decode.md) -/

/-- R90 to R94: in a RUNNING core the two bytes at pc, decoded, are the instruction that runs; the step adds nothing
around it (the fetch advance is in the meaning, log 5). -/
def Obligations.StepRunsTheDecodedInstruction : Prop :=
  ∀ (s : State) (i : Instr), s.status = .running → s.pc.toNat + 1 < 4096 →
    decode [s.readByte s.pc.toNat, s.readByte (s.pc.toNat + 1)] = .ok (i, []) → step s = exec i s

/-- R53, R91: the fetch is big-endian, and faults with the first address that does not exist; pc need not be even. -/
def Obligations.FetchIsBigEndianAndBounded : Prop :=
  ∀ s : State,
    (s.pc.toNat + 1 < 4096 → ∃ op, s.fetch = .ok op ∧
      op.toNat = (s.readByte s.pc.toNat).toNat * 256 + (s.readByte (s.pc.toNat + 1)).toNat) ∧
    (s.status = .running → 4096 ≤ s.pc.toNat → ∃ t, step s = .next t ∧
      t.status = .halted ⟨.fetchOutOfBounds, s.pc, none, some s.pc.toNat⟩ ∧ ChangesOnly (fun p => p = .status) s t) ∧
    (s.status = .running → s.pc.toNat = 4095 → ∃ t, step s = .next t ∧
      t.status = .halted ⟨.fetchOutOfBounds, s.pc, none, some 4096⟩ ∧ ChangesOnly (fun p => p = .status) s t)

/-- R77: a word of the illegal spaces takes UNIMPLEMENTED_OPCODE with its word and address, the fetch advance undone;
every other word decodes. -/
def Obligations.IllegalSpacesTakeTheFault : Prop :=
  ∀ (s : State) (w : Nat), s.status = .running → s.pc.toNat + 1 < 4096 →
    w = (s.readByte s.pc.toNat).toNat * 256 + (s.readByte (s.pc.toNat + 1)).toNat →
    ((w / 4096 = 0 ∧ w ∉ [0x0000, 0x00E0, 0x00EE] ∨ w / 4096 = 5 ∧ w % 16 ≠ 0 ∨
        w / 4096 = 8 ∧ w % 16 ∈ [0x8, 0x9, 0xA, 0xB, 0xC, 0xD, 0xF] ∨ w / 4096 = 9 ∧ w % 16 ≠ 0 ∨
        w / 4096 = 0xE ∧ w % 256 ∉ [0x9E, 0xA1] ∨
        w / 4096 = 0xF ∧ w % 256 ∉ [0x07, 0x0A, 0x15, 0x18, 0x1E, 0x29, 0x33, 0x55, 0x65]) →
      ∃ t, step s = .next t ∧
        t.status = .halted ⟨.unimplementedOpcode, s.pc, some (BitVec.ofNat 16 w), none⟩ ∧
        ChangesOnly (fun p => p = .status) s t) ∧
    (¬ (w / 4096 = 0 ∧ w ∉ [0x0000, 0x00E0, 0x00EE] ∨ w / 4096 = 5 ∧ w % 16 ≠ 0 ∨
        w / 4096 = 8 ∧ w % 16 ∈ [0x8, 0x9, 0xA, 0xB, 0xC, 0xD, 0xF] ∨ w / 4096 = 9 ∧ w % 16 ≠ 0 ∨
        w / 4096 = 0xE ∧ w % 256 ∉ [0x9E, 0xA1] ∨
        w / 4096 = 0xF ∧ w % 256 ∉ [0x07, 0x0A, 0x15, 0x18, 0x1E, 0x29, 0x33, 0x55, 0x65]) →
      ∃ i, decodeWord (BitVec.ofNat 16 w) = .ok i)

/-- R75, with the disjointness that the spec marks derived: the instruction is the unique row with op & mask == match, and there is none when no row matches. -/
def Obligations.DecodingSelectsTheUniqueRow : Prop :=
  ∀ op : Opcode,
    (∀ i, decodeWord op = .ok i → i.row ∈ opcodeTable ∧ i.row.matches op = true ∧
      ∀ r ∈ opcodeTable, r.matches op = true → r = i.row) ∧
    (∀ r ∈ opcodeTable, r.matches op = true → ∃ i, decodeWord op = .ok i)

/-- Decoding the word of a well-formed instruction gives it back, every operand at every value, and leaves the bytes
after it. -/
def Obligations.DecodeOfEncodeIsTheInstruction : Prop :=
  ∀ i : Instr, i.wellFormed = true →
    decodeWord (encode i) = .ok i ∧ ∀ rest, decode (encodeBytes i ++ rest) = .ok (i, rest)

/-- Encoding what a word decodes to gives the word back: no bit of a word is lost, ignored fields included. -/
def Obligations.EncodeOfDecodeIsTheWord : Prop :=
  ∀ (op : Opcode) (i : Instr), decodeWord op = .ok i → i.wellFormed = true ∧ encode i = op

/-- Words written out from the table of R74, one of each format and each group of minor opcodes. -/
def Obligations.WordsOfTheTableDecode : Prop :=
  decodeWord 0x00EE = .ok .ret ∧ decodeWord 0x1208 = .ok (.jp 0x208) ∧ decodeWord 0x3F01 = .ok (.seImm 15 1) ∧
  decodeWord 0x8125 = .ok (.subReg 1 2) ∧ decodeWord 0x83AE = .ok (.shl 3 10) ∧ decodeWord 0x9120 = .ok (.sneReg 1 2) ∧
  decodeWord 0xDAB2 = .ok (.drw 10 11 2) ∧ decodeWord 0xE1A1 = .ok (.sknp 1) ∧ decodeWord 0xF155 = .ok (.ldMemVx 1) ∧
  decodeWord 0xF265 = .ok (.ldVxMem 2)

/-- The word placed by `withFetchWord` is the word the next step runs, from any state with a canonical memory: the
host's harness, the model's own (log 9). -/
def Obligations.PlacedWordRunsNext : Prop :=
  ∀ (s : State) (w : Nat) (i : Instr), Memory.wf s.params s.mem → decodeTableWord 16 w = some i →
    step (s.withFetchWord 16 w) = exec i (s.withFetchWord 16 w)

/-! ## Faults (60_exceptions.md) -/

/-- R95: a STEP either completes and leaves the core RUNNING, or leaves the state as it was before it but for status,
with a record that names the instruction's own address and, but for a fetch fault, the fetched word. -/
def Obligations.FaultingStepCommitsNothing : Prop :=
  ∀ s t : State, s.status = .running → step s = .next t →
    t.status = .running ∨
    ∃ r, t = s.setStatus (.halted r) ∧ r.pc = s.pc ∧
      (∀ op, s.fetch = .ok op → r.opcode = some op) ∧ (∀ a, s.fetch = .error a → r.opcode = none)

/-- R96, R174: STEP on a HALTED core changes nothing and returns the record that halted it; no transaction but RESET
leaves HALTED, and the record and the program's registers stay; RESET does leave it; a STEP of a RUNNING core returns OK
exactly when it leaves the core RUNNING. -/
def Obligations.HaltedCoreKeepsItsRecordUntilReset : Prop :=
  (∀ (s : State) (r : FaultRecord), s.status = .halted r →
    transact s .step = .next (.stepped (some r), s) ∧
    (∀ tr : Transaction, tr ≠ .reset → ∃ reply t, transact s tr = .next (reply, t) ∧ t.status = .halted r ∧
      t.pc = s.pc ∧ t.V = s.V ∧ t.I = s.I ∧ t.stack = s.stack ∧ t.SP = s.SP ∧ t.disp = s.disp) ∧
    ∃ t, transact s .reset = .next (.ok, t) ∧ t.status = .running) ∧
  (∀ (s t : State), s.status = .running → step s = .next t →
    (transact s .step = .next (.stepped none, t) ↔ t.status = .running) ∧
    (∀ r, t.status = .halted r → transact s .step = .next (.stepped (some r), t)))

/-- R171: the instructions that can fault in their execute phase, each with its kind; no other can. -/
def Obligations.OnlyNamedInstructionsFault : Prop :=
  ∀ (i : Instr) (s t : State) (r : FaultRecord), s.status = .running → exec i s = .next t → t.status = .halted r →
    (i = .ret ∧ r.kind = .stackUnderflow) ∨ (∃ nnn, i = .call nnn ∧ r.kind = .stackOverflow) ∨
    (∃ x y n, i = .drw x y n ∧ 1 ≤ n ∧ r.kind = .dataOutOfBounds) ∨
    (∃ x, (i = .ldB x ∨ i = .ldMemVx x ∨ i = .ldVxMem x) ∧ r.kind = .dataOutOfBounds) ∨
    (∃ x, (i = .skp x ∨ i = .sknp x) ∧ r.kind = .keyIndexOutOfRange)

/-- The model's own stop (log 7): CALL and RET answer the fault exactly where SP is above 16, which is no state of the
machine, and no other instruction ever stops. -/
def Obligations.OnlyAnImpossibleStackPointerStops : Prop :=
  ∀ (i : Instr) (s : State),
    ((∃ f, exec i s = .fault f) ↔ 16 < s.SP.toNat ∧ (i = .ret ∨ ∃ nnn, i = .call nnn)) ∧
    ¬ ∃ r, exec i s = .refused r

/-! ## The whole machine -/

/-- The "written by" column of R37, over all 35 instructions: whatever an instruction does, it changes only the parts
the access matrix gives it, or takes a fault and changes status alone. -/
def Obligations.InstructionsChangeOnlyTheirColumn : Prop :=
  ∀ (i : Instr) (s t : State), exec i s = .next t →
    ChangesOnly (mayChange s i) s t ∨ ChangesOnly (fun p => p = .status) s t

/-- The "read by" column of R37, every row of it: from two states that differ only in parts an instruction does not
read, its results differ only in those parts. A register, a stack entry, a key and a byte of memory count one by one, so
that 8xy6 and 8xyE do not depend on V[y], nor 00EE on any entry but the top one, nor any instruction but Dxyn and Fx65 on
a data byte. pc, which every instruction reads, and the model's params are the same in both states. Equal draw counters
give both states one and the same draw (log 3), and only Cxnn needs them equal. The memories are one list, or both in
canonical form. -/
def Obligations.InstructionsReadOnlyTheirColumn : Prop :=
  ∀ (i : Instr) (s t : State) (differ : Part → Prop), ChangesOnly differ s t →
    (∀ p, differ p → p ≠ .pc ∧ p ≠ .params ∧ ¬ mayRead s i p) →
    (t.mem = s.mem ∨ (Memory.wf s.params s.mem ∧ Memory.wf t.params t.mem)) →
    AgreeOutside differ (exec i s) (exec i t)

/-- R35: the entries at and above SP are unobservable: states that differ only there step to states that differ only
there, so every field a host can see stays equal. -/
def Obligations.StaleStackEntriesAreUnobservable : Prop :=
  ∀ s t s' : State, s.SP.toNat ≤ 16 → SameButStaleStack s t → step s = .next s' →
    ∃ t', step t = .next t' ∧ SameButStaleStack s' t'

/-- The invariant holds after INITIALIZE under every parameter value. -/
def Obligations.InitialStateMeetsTheInvariant : Prop := ∀ p : Config.Params, (State.initial p).Inv

/-- Every step keeps the invariant: memory canonical, SP in 0..16 (R27), pc and stack entries within reach (R24), and
the record of a fault as the fault left it. -/
def Obligations.StepKeepsTheInvariant : Prop :=
  ∀ s t : State, s.Inv → step s = .next t → t.Inv

/-- From a state that meets the invariant a step always answers a next state: the model stops nowhere. -/
def Obligations.StepNeverStops : Prop := ∀ s : State, s.Inv → ∃ t, step s = .next t

/-- Every transaction of the host completes and keeps the invariant and the parameters (R6, R209). -/
def Obligations.TransactionsKeepTheInvariant : Prop :=
  ∀ (s : State) (tr : Transaction), s.Inv →
    ∃ reply t, transact s tr = .next (reply, t) ∧ t.Inv ∧ t.params = s.params

/-- Whatever the host asks for, in any order and number, under any parameters, the machine goes on from INITIALIZE and
stays within the invariant (R209). -/
def Obligations.EveryHostRunStaysWithinTheInvariant : Prop :=
  ∀ (p : Config.Params) (ts : List Transaction),
    ∃ t, runHost (State.initial p) ts = .next t ∧ t.Inv ∧ t.params = p

/-- R189: a run at the stop idiom or waiting for a key is not moved by a STEP. -/
def Obligations.StopIdiomAndKeyWaitStandStill : Prop :=
  ∀ s : State, s.runEnd = .selfJump ∨ s.runEnd = .waitsForKey → step s = .next s

/-- Canonical memories that read alike are equal data. -/
def Obligations.CanonicalMemoriesThatReadAlikeAreEqual : Prop :=
  ∀ (p : Config.Params) (m m' : Memory), Memory.wf p m → Memory.wf p m' →
    (∀ a, Memory.read p m a = Memory.read p m' a) → m = m'

/-! ## The other transactions (60_exceptions.md, 70_reset_and_hazards.md) -/

/-- R38, R200, R201: what INITIALIZE leaves, and RESET from any state, under every parameter value. -/
def Obligations.InitializeAndResetLeaveTheResetValues : Prop :=
  ∀ (s u : State), (u = State.initial s.params ∨ u = s.resetCore) →
    u.pc = 0x200 ∧ (∀ x, u.readV x = 0) ∧ u.I = 0 ∧ (∀ k : Fin 16, u.stack[k] = 0) ∧ u.SP = 0 ∧ u.DT = 0 ∧
    u.ST = 0 ∧ (∀ k : Fin 16, u.key[k] = false) ∧ (∀ c : Fin 2048, u.disp.cell c = false) ∧
    (∀ k : Fin 80, u.readByte k.val = s.params.font[k]) ∧ (∀ a, 80 ≤ a → a < 4096 → u.readByte a = 0) ∧
    u.status = .running

/-- R202: LOAD copies the image to 0x200 and changes no other state, in either status; an image that does not fit is
rejected whole. The bytes read back from a memory in canonical form. -/
def Obligations.LoadCopiesTheImageOrNothing : Prop :=
  ∀ (s : State) (bytes : List Byte),
    (Memory.wf s.params s.mem → 0x200 + bytes.length ≤ 4096 → ∃ t, transact s (.load bytes) = .next (.ok, t) ∧
      (∀ (k : Nat) (h : k < bytes.length), t.readByte (0x200 + k) = bytes[k]) ∧
      ChangesOnly (fun p => ∃ k, k < bytes.length ∧ p = .byte (0x200 + k)) s t) ∧
    (4096 < 0x200 + bytes.length → transact s (.load bytes) = .next (.failed .loadOutOfBounds, s))

/-- R180, R183: both timers count down to zero and no further, sound_end is the 1-to-0 edge, sound_active the level;
nothing else changes, in either status. -/
def Obligations.TickCountsTheTimersDown : Prop :=
  ∀ s : State, ∃ (soundEnd : Bool) (t : State), transact s .tick = .next (.ticked soundEnd, t) ∧
    t.DT.toNat = s.DT.toNat - 1 ∧ t.ST.toNat = s.ST.toNat - 1 ∧
    (soundEnd = true ↔ s.soundActive = true ∧ t.soundActive = false) ∧ (soundEnd = true ↔ s.ST.toNat = 1) ∧
    (t.soundActive = true ↔ t.ST ≠ 0) ∧ ChangesOnly (fun p => p = .delay ∨ p = .sound) s t

/-- R184: KEY sets one key, in either status; an index outside 0..15 is rejected with no state change. -/
def Obligations.KeySetsOneKey : Prop :=
  ∀ (s : State) (index : Nat) (pressed : Bool),
    (∀ k : Fin 16, k.val = index → ∃ t, transact s (.key index pressed) = .next (.ok, t) ∧
      t.key[k] = pressed ∧ ChangesOnly (fun p => p = .key k) s t) ∧
    (15 < index → transact s (.key index pressed) = .next (.failed .keyIndexRejected, s))

/-- R127, R31: DISPLAY returns the cells in row-major order, cell y * 64 + x being (x, y), and changes no state. -/
def Obligations.DisplayReturnsTheCells : Prop :=
  ∀ s : State, ∃ d, transact s .display = .next (.cells d, s) ∧
    ∀ (x y : Nat) (hx : x < 64) (hy : y < 32), d.cell ⟨y * 64 + x, by omega⟩ = s.cell x y

/-- R58 with R152: where the font area holds FONT, as INITIALIZE leaves it and whatever else is in memory, Fx29 points I
at the five font bytes of character V[x], for V[x] in 0..15. -/
def Obligations.FontAddressPointsAtTheCharacter : Prop :=
  ∀ (s : State) (x : Reg), (∀ k : Fin 80, s.readByte k.val = s.params.font[k]) →
    ∀ k : Fin 16, (s.readV x).toNat = k.val →
      ∃ t, exec (.ldF x) s = .next t ∧
        ∀ j : Fin 5, t.readByte (t.I.toNat + j.val) = s.params.font[5 * k.val + j.val]'(by omega)
end

