-- ==== Sys2Proof/Laws/Decode.lean ====
section
/-! SUPPORT. The fields of an encoded word, and the bytes of a word. -/

namespace Sys2Proof

@[simp] theorem regOfNibble_nibbleOfReg (x : Reg) : regOfNibble (nibbleOfReg x) = x := by
  revert x; decide

@[simp] theorem nibbleOfReg_regOfNibble (v : BitVec 4) : nibbleOfReg (regOfNibble v) = v := by
  simp [nibbleOfReg, regOfNibble]

/-! ## F_NNN -/

@[simp] theorem fieldN1_encNNN (n1 : BitVec 4) (nnn : BitVec 12) : fieldN1 (encNNN n1 nnn) = n1 :=
  BitVec.extractLsb'_append_eq_left

@[simp] theorem fieldNNN_encNNN (n1 : BitVec 4) (nnn : BitVec 12) : fieldNNN (encNNN n1 nnn) = nnn :=
  BitVec.extractLsb'_append_eq_right

/-! ## F_XNN and F_X -/

@[simp] theorem fieldN1_encXNN (n1 : BitVec 4) (x : Reg) (nn : Byte) : fieldN1 (encXNN n1 x nn) = n1 := by
  unfold fieldN1 encXNN
  rw [BitVec.extractLsb'_append_eq_of_le (by omega)]
  exact BitVec.extractLsb'_append_eq_left

@[simp] theorem fieldX_encXNN (n1 : BitVec 4) (x : Reg) (nn : Byte) : fieldX (encXNN n1 x nn) = x := by
  unfold fieldX encXNN
  rw [BitVec.extractLsb'_append_eq_of_le (by omega),
    show (n1 ++ nibbleOfReg x).extractLsb' (8 - 8) 4 = nibbleOfReg x from BitVec.extractLsb'_append_eq_right]
  simp

@[simp] theorem fieldNN_encXNN (n1 : BitVec 4) (x : Reg) (nn : Byte) : fieldNN (encXNN n1 x nn) = nn :=
  BitVec.extractLsb'_append_eq_right

/-! ## F_XY and F_XYN -/

@[simp] theorem fieldN1_encXYN (n1 : BitVec 4) (x y : Reg) (n : BitVec 4) : fieldN1 (encXYN n1 x y n) = n1 := by
  unfold fieldN1 encXYN
  rw [BitVec.extractLsb'_append_eq_of_le (by omega), BitVec.extractLsb'_append_eq_of_le (by omega)]
  exact BitVec.extractLsb'_append_eq_left

@[simp] theorem fieldX_encXYN (n1 : BitVec 4) (x y : Reg) (n : BitVec 4) : fieldX (encXYN n1 x y n) = x := by
  unfold fieldX encXYN
  rw [BitVec.extractLsb'_append_eq_of_le (by omega), BitVec.extractLsb'_append_eq_of_le (by omega),
    show (n1 ++ nibbleOfReg x).extractLsb' (8 - 4 - 4) 4 = nibbleOfReg x from BitVec.extractLsb'_append_eq_right]
  simp

@[simp] theorem fieldY_encXYN (n1 : BitVec 4) (x y : Reg) (n : BitVec 4) : fieldY (encXYN n1 x y n) = y := by
  unfold fieldY encXYN
  rw [BitVec.extractLsb'_append_eq_of_le (by omega),
    show (n1 ++ nibbleOfReg x ++ nibbleOfReg y).extractLsb' (4 - 4) 4 = nibbleOfReg y from
      BitVec.extractLsb'_append_eq_right]
  simp

@[simp] theorem fieldN_encXYN (n1 : BitVec 4) (x y : Reg) (n : BitVec 4) : fieldN (encXYN n1 x y n) = n :=
  BitVec.extractLsb'_append_eq_right

/-! ## Bytes of a word -/

@[simp] theorem wordOfBytes_highByte_lowByte (w : Word) : wordOfBytes (highByte w) (lowByte w) = w :=
  BitVec.extractLsb'_append_extractLsb' (w := 8) (len := 8) (x := w)

@[simp] theorem highByte_wordOfBytes (hi lo : Byte) : highByte (wordOfBytes hi lo) = hi :=
  BitVec.extractLsb'_append_eq_left

@[simp] theorem lowByte_wordOfBytes (hi lo : Byte) : lowByte (wordOfBytes hi lo) = lo :=
  BitVec.extractLsb'_append_eq_right

/-! ## Masked words -/

theorem encNNN_and_mask (n1 : BitVec 4) (nnn : BitVec 12) : encNNN n1 nnn &&& 0xF000 = n1 ++ 0#12 := by
  unfold encNNN
  rw [show (0xF000 : BitVec 16) = 0xF#4 ++ 0x000#12 from rfl, BitVec.and_append,
    show n1 &&& 0xF#4 = n1 from BitVec.and_allOnes, show nnn &&& 0x000#12 = 0#12 from BitVec.and_zero]

theorem encXNN_and_major (n1 : BitVec 4) (x : Reg) (nn : Byte) : encXNN n1 x nn &&& 0xF000 = n1 ++ 0#12 := by
  unfold encXNN
  rw [show (0xF000 : BitVec 16) = (0xF#4 ++ 0x0#4) ++ 0x00#8 from rfl, BitVec.and_append, BitVec.and_append,
    show n1 &&& 0xF#4 = n1 from BitVec.and_allOnes, show nibbleOfReg x &&& 0x0#4 = 0#4 from BitVec.and_zero,
    show nn &&& 0x00#8 = 0#8 from BitVec.and_zero, BitVec.append_assoc]
  rfl

theorem encXNN_and_mask (n1 : BitVec 4) (x : Reg) (nn : Byte) : encXNN n1 x nn &&& 0xF0FF = n1 ++ 0#4 ++ nn := by
  unfold encXNN
  rw [show (0xF0FF : BitVec 16) = (0xF#4 ++ 0x0#4) ++ 0xFF#8 from rfl, BitVec.and_append, BitVec.and_append,
    show n1 &&& 0xF#4 = n1 from BitVec.and_allOnes, show nibbleOfReg x &&& 0x0#4 = 0#4 from BitVec.and_zero,
    show nn &&& 0xFF#8 = nn from BitVec.and_allOnes]

theorem encXYN_and_mask (n1 : BitVec 4) (x y : Reg) (n : BitVec 4) :
    encXYN n1 x y n &&& 0xF00F = n1 ++ 0#4 ++ 0#4 ++ n := by
  unfold encXYN
  rw [show (0xF00F : BitVec 16) = ((0xF#4 ++ 0x0#4) ++ 0x0#4) ++ 0xF#4 from rfl, BitVec.and_append,
    BitVec.and_append, BitVec.and_append, show n1 &&& 0xF#4 = n1 from BitVec.and_allOnes,
    show nibbleOfReg x &&& 0x0#4 = 0#4 from BitVec.and_zero,
    show nibbleOfReg y &&& 0x0#4 = 0#4 from BitVec.and_zero, show n &&& 0xF#4 = n from BitVec.and_allOnes]

theorem encXYN_and_major (n1 : BitVec 4) (x y : Reg) (n : BitVec 4) :
    encXYN n1 x y n &&& 0xF000 = n1 ++ 0#4 ++ 0#4 ++ 0#4 := by
  unfold encXYN
  rw [show (0xF000 : BitVec 16) = ((0xF#4 ++ 0x0#4) ++ 0x0#4) ++ 0x0#4 from rfl, BitVec.and_append,
    BitVec.and_append, BitVec.and_append, show n1 &&& 0xF#4 = n1 from BitVec.and_allOnes,
    show nibbleOfReg x &&& 0x0#4 = 0#4 from BitVec.and_zero,
    show nibbleOfReg y &&& 0x0#4 = 0#4 from BitVec.and_zero, show n &&& 0x0#4 = 0#4 from BitVec.and_zero]

end Sys2Proof
end

