-- ==== Sys2Proof/Laws/State.lean ====
section
/-! SUPPORT. One lemma per field per update, true by rfl: no later proof unfolds a record update. -/

namespace Sys2Proof.Machine

/-! ### setPc -/

@[simp] theorem State.setPc_V (s : State) (w : Word) : (s.setPc w).V = s.V := rfl
@[simp] theorem State.setPc_pc (s : State) (w : Word) : (s.setPc w).pc = w := rfl
@[simp] theorem State.setPc_I (s : State) (w : Word) : (s.setPc w).I = s.I := rfl
@[simp] theorem State.setPc_stack (s : State) (w : Word) : (s.setPc w).stack = s.stack := rfl
@[simp] theorem State.setPc_SP (s : State) (w : Word) : (s.setPc w).SP = s.SP := rfl
@[simp] theorem State.setPc_DT (s : State) (w : Word) : (s.setPc w).DT = s.DT := rfl
@[simp] theorem State.setPc_ST (s : State) (w : Word) : (s.setPc w).ST = s.ST := rfl
@[simp] theorem State.setPc_key (s : State) (w : Word) : (s.setPc w).key = s.key := rfl
@[simp] theorem State.setPc_disp (s : State) (w : Word) : (s.setPc w).disp = s.disp := rfl
@[simp] theorem State.setPc_mem (s : State) (w : Word) : (s.setPc w).mem = s.mem := rfl
@[simp] theorem State.setPc_status (s : State) (w : Word) : (s.setPc w).status = s.status := rfl
@[simp] theorem State.setPc_draws (s : State) (w : Word) : (s.setPc w).draws = s.draws := rfl
@[simp] theorem State.setPc_params (s : State) (w : Word) : (s.setPc w).params = s.params := rfl
@[simp] theorem State.setPc_readV (s : State) (w : Word) (y : Reg) : (s.setPc w).readV y = s.readV y := rfl
@[simp] theorem State.setPc_readByte (s : State) (w : Word) (c : Nat) : (s.setPc w).readByte c = s.readByte c := rfl

/-! ### setI -/

@[simp] theorem State.setI_V (s : State) (w : Word) : (s.setI w).V = s.V := rfl
@[simp] theorem State.setI_pc (s : State) (w : Word) : (s.setI w).pc = s.pc := rfl
@[simp] theorem State.setI_I (s : State) (w : Word) : (s.setI w).I = w := rfl
@[simp] theorem State.setI_stack (s : State) (w : Word) : (s.setI w).stack = s.stack := rfl
@[simp] theorem State.setI_SP (s : State) (w : Word) : (s.setI w).SP = s.SP := rfl
@[simp] theorem State.setI_DT (s : State) (w : Word) : (s.setI w).DT = s.DT := rfl
@[simp] theorem State.setI_ST (s : State) (w : Word) : (s.setI w).ST = s.ST := rfl
@[simp] theorem State.setI_key (s : State) (w : Word) : (s.setI w).key = s.key := rfl
@[simp] theorem State.setI_disp (s : State) (w : Word) : (s.setI w).disp = s.disp := rfl
@[simp] theorem State.setI_mem (s : State) (w : Word) : (s.setI w).mem = s.mem := rfl
@[simp] theorem State.setI_status (s : State) (w : Word) : (s.setI w).status = s.status := rfl
@[simp] theorem State.setI_draws (s : State) (w : Word) : (s.setI w).draws = s.draws := rfl
@[simp] theorem State.setI_params (s : State) (w : Word) : (s.setI w).params = s.params := rfl
@[simp] theorem State.setI_readV (s : State) (w : Word) (y : Reg) : (s.setI w).readV y = s.readV y := rfl
@[simp] theorem State.setI_readByte (s : State) (w : Word) (c : Nat) : (s.setI w).readByte c = s.readByte c := rfl

/-! ### setDT -/

@[simp] theorem State.setDT_V (s : State) (b : Byte) : (s.setDT b).V = s.V := rfl
@[simp] theorem State.setDT_pc (s : State) (b : Byte) : (s.setDT b).pc = s.pc := rfl
@[simp] theorem State.setDT_I (s : State) (b : Byte) : (s.setDT b).I = s.I := rfl
@[simp] theorem State.setDT_stack (s : State) (b : Byte) : (s.setDT b).stack = s.stack := rfl
@[simp] theorem State.setDT_SP (s : State) (b : Byte) : (s.setDT b).SP = s.SP := rfl
@[simp] theorem State.setDT_DT (s : State) (b : Byte) : (s.setDT b).DT = b := rfl
@[simp] theorem State.setDT_ST (s : State) (b : Byte) : (s.setDT b).ST = s.ST := rfl
@[simp] theorem State.setDT_key (s : State) (b : Byte) : (s.setDT b).key = s.key := rfl
@[simp] theorem State.setDT_disp (s : State) (b : Byte) : (s.setDT b).disp = s.disp := rfl
@[simp] theorem State.setDT_mem (s : State) (b : Byte) : (s.setDT b).mem = s.mem := rfl
@[simp] theorem State.setDT_status (s : State) (b : Byte) : (s.setDT b).status = s.status := rfl
@[simp] theorem State.setDT_draws (s : State) (b : Byte) : (s.setDT b).draws = s.draws := rfl
@[simp] theorem State.setDT_params (s : State) (b : Byte) : (s.setDT b).params = s.params := rfl
@[simp] theorem State.setDT_readV (s : State) (b : Byte) (y : Reg) : (s.setDT b).readV y = s.readV y := rfl
@[simp] theorem State.setDT_readByte (s : State) (b : Byte) (c : Nat) : (s.setDT b).readByte c = s.readByte c := rfl

/-! ### setST -/

@[simp] theorem State.setST_V (s : State) (b : Byte) : (s.setST b).V = s.V := rfl
@[simp] theorem State.setST_pc (s : State) (b : Byte) : (s.setST b).pc = s.pc := rfl
@[simp] theorem State.setST_I (s : State) (b : Byte) : (s.setST b).I = s.I := rfl
@[simp] theorem State.setST_stack (s : State) (b : Byte) : (s.setST b).stack = s.stack := rfl
@[simp] theorem State.setST_SP (s : State) (b : Byte) : (s.setST b).SP = s.SP := rfl
@[simp] theorem State.setST_DT (s : State) (b : Byte) : (s.setST b).DT = s.DT := rfl
@[simp] theorem State.setST_ST (s : State) (b : Byte) : (s.setST b).ST = b := rfl
@[simp] theorem State.setST_key (s : State) (b : Byte) : (s.setST b).key = s.key := rfl
@[simp] theorem State.setST_disp (s : State) (b : Byte) : (s.setST b).disp = s.disp := rfl
@[simp] theorem State.setST_mem (s : State) (b : Byte) : (s.setST b).mem = s.mem := rfl
@[simp] theorem State.setST_status (s : State) (b : Byte) : (s.setST b).status = s.status := rfl
@[simp] theorem State.setST_draws (s : State) (b : Byte) : (s.setST b).draws = s.draws := rfl
@[simp] theorem State.setST_params (s : State) (b : Byte) : (s.setST b).params = s.params := rfl
@[simp] theorem State.setST_readV (s : State) (b : Byte) (y : Reg) : (s.setST b).readV y = s.readV y := rfl
@[simp] theorem State.setST_readByte (s : State) (b : Byte) (c : Nat) : (s.setST b).readByte c = s.readByte c := rfl

/-! ### setSP -/

@[simp] theorem State.setSP_V (s : State) (b : Byte) : (s.setSP b).V = s.V := rfl
@[simp] theorem State.setSP_pc (s : State) (b : Byte) : (s.setSP b).pc = s.pc := rfl
@[simp] theorem State.setSP_I (s : State) (b : Byte) : (s.setSP b).I = s.I := rfl
@[simp] theorem State.setSP_stack (s : State) (b : Byte) : (s.setSP b).stack = s.stack := rfl
@[simp] theorem State.setSP_SP (s : State) (b : Byte) : (s.setSP b).SP = b := rfl
@[simp] theorem State.setSP_DT (s : State) (b : Byte) : (s.setSP b).DT = s.DT := rfl
@[simp] theorem State.setSP_ST (s : State) (b : Byte) : (s.setSP b).ST = s.ST := rfl
@[simp] theorem State.setSP_key (s : State) (b : Byte) : (s.setSP b).key = s.key := rfl
@[simp] theorem State.setSP_disp (s : State) (b : Byte) : (s.setSP b).disp = s.disp := rfl
@[simp] theorem State.setSP_mem (s : State) (b : Byte) : (s.setSP b).mem = s.mem := rfl
@[simp] theorem State.setSP_status (s : State) (b : Byte) : (s.setSP b).status = s.status := rfl
@[simp] theorem State.setSP_draws (s : State) (b : Byte) : (s.setSP b).draws = s.draws := rfl
@[simp] theorem State.setSP_params (s : State) (b : Byte) : (s.setSP b).params = s.params := rfl
@[simp] theorem State.setSP_readV (s : State) (b : Byte) (y : Reg) : (s.setSP b).readV y = s.readV y := rfl
@[simp] theorem State.setSP_readByte (s : State) (b : Byte) (c : Nat) : (s.setSP b).readByte c = s.readByte c := rfl

/-! ### setDisp -/

@[simp] theorem State.setDisp_V (s : State) (d : Display) : (s.setDisp d).V = s.V := rfl
@[simp] theorem State.setDisp_pc (s : State) (d : Display) : (s.setDisp d).pc = s.pc := rfl
@[simp] theorem State.setDisp_I (s : State) (d : Display) : (s.setDisp d).I = s.I := rfl
@[simp] theorem State.setDisp_stack (s : State) (d : Display) : (s.setDisp d).stack = s.stack := rfl
@[simp] theorem State.setDisp_SP (s : State) (d : Display) : (s.setDisp d).SP = s.SP := rfl
@[simp] theorem State.setDisp_DT (s : State) (d : Display) : (s.setDisp d).DT = s.DT := rfl
@[simp] theorem State.setDisp_ST (s : State) (d : Display) : (s.setDisp d).ST = s.ST := rfl
@[simp] theorem State.setDisp_key (s : State) (d : Display) : (s.setDisp d).key = s.key := rfl
@[simp] theorem State.setDisp_disp (s : State) (d : Display) : (s.setDisp d).disp = d := rfl
@[simp] theorem State.setDisp_mem (s : State) (d : Display) : (s.setDisp d).mem = s.mem := rfl
@[simp] theorem State.setDisp_status (s : State) (d : Display) : (s.setDisp d).status = s.status := rfl
@[simp] theorem State.setDisp_draws (s : State) (d : Display) : (s.setDisp d).draws = s.draws := rfl
@[simp] theorem State.setDisp_params (s : State) (d : Display) : (s.setDisp d).params = s.params := rfl
@[simp] theorem State.setDisp_readV (s : State) (d : Display) (y : Reg) : (s.setDisp d).readV y = s.readV y := rfl
@[simp] theorem State.setDisp_readByte (s : State) (d : Display) (c : Nat) :
    (s.setDisp d).readByte c = s.readByte c := rfl

/-! ### setMem -/

@[simp] theorem State.setMem_V (s : State) (m : Memory) : (s.setMem m).V = s.V := rfl
@[simp] theorem State.setMem_pc (s : State) (m : Memory) : (s.setMem m).pc = s.pc := rfl
@[simp] theorem State.setMem_I (s : State) (m : Memory) : (s.setMem m).I = s.I := rfl
@[simp] theorem State.setMem_stack (s : State) (m : Memory) : (s.setMem m).stack = s.stack := rfl
@[simp] theorem State.setMem_SP (s : State) (m : Memory) : (s.setMem m).SP = s.SP := rfl
@[simp] theorem State.setMem_DT (s : State) (m : Memory) : (s.setMem m).DT = s.DT := rfl
@[simp] theorem State.setMem_ST (s : State) (m : Memory) : (s.setMem m).ST = s.ST := rfl
@[simp] theorem State.setMem_key (s : State) (m : Memory) : (s.setMem m).key = s.key := rfl
@[simp] theorem State.setMem_disp (s : State) (m : Memory) : (s.setMem m).disp = s.disp := rfl
@[simp] theorem State.setMem_mem (s : State) (m : Memory) : (s.setMem m).mem = m := rfl
@[simp] theorem State.setMem_status (s : State) (m : Memory) : (s.setMem m).status = s.status := rfl
@[simp] theorem State.setMem_draws (s : State) (m : Memory) : (s.setMem m).draws = s.draws := rfl
@[simp] theorem State.setMem_params (s : State) (m : Memory) : (s.setMem m).params = s.params := rfl
@[simp] theorem State.setMem_readV (s : State) (m : Memory) (y : Reg) : (s.setMem m).readV y = s.readV y := rfl

/-! ### setStatus -/

@[simp] theorem State.setStatus_V (s : State) (st : Status) : (s.setStatus st).V = s.V := rfl
@[simp] theorem State.setStatus_pc (s : State) (st : Status) : (s.setStatus st).pc = s.pc := rfl
@[simp] theorem State.setStatus_I (s : State) (st : Status) : (s.setStatus st).I = s.I := rfl
@[simp] theorem State.setStatus_stack (s : State) (st : Status) : (s.setStatus st).stack = s.stack := rfl
@[simp] theorem State.setStatus_SP (s : State) (st : Status) : (s.setStatus st).SP = s.SP := rfl
@[simp] theorem State.setStatus_DT (s : State) (st : Status) : (s.setStatus st).DT = s.DT := rfl
@[simp] theorem State.setStatus_ST (s : State) (st : Status) : (s.setStatus st).ST = s.ST := rfl
@[simp] theorem State.setStatus_key (s : State) (st : Status) : (s.setStatus st).key = s.key := rfl
@[simp] theorem State.setStatus_disp (s : State) (st : Status) : (s.setStatus st).disp = s.disp := rfl
@[simp] theorem State.setStatus_mem (s : State) (st : Status) : (s.setStatus st).mem = s.mem := rfl
@[simp] theorem State.setStatus_status (s : State) (st : Status) : (s.setStatus st).status = st := rfl
@[simp] theorem State.setStatus_draws (s : State) (st : Status) : (s.setStatus st).draws = s.draws := rfl
@[simp] theorem State.setStatus_params (s : State) (st : Status) : (s.setStatus st).params = s.params := rfl
@[simp] theorem State.setStatus_readV (s : State) (st : Status) (y : Reg) :
    (s.setStatus st).readV y = s.readV y := rfl
@[simp] theorem State.setStatus_readByte (s : State) (st : Status) (c : Nat) :
    (s.setStatus st).readByte c = s.readByte c := rfl

/-! ### setV -/

@[simp] theorem State.setV_V (s : State) (v : Vector Byte 16) : (s.setV v).V = v := rfl
@[simp] theorem State.setV_pc (s : State) (v : Vector Byte 16) : (s.setV v).pc = s.pc := rfl
@[simp] theorem State.setV_I (s : State) (v : Vector Byte 16) : (s.setV v).I = s.I := rfl
@[simp] theorem State.setV_stack (s : State) (v : Vector Byte 16) : (s.setV v).stack = s.stack := rfl
@[simp] theorem State.setV_SP (s : State) (v : Vector Byte 16) : (s.setV v).SP = s.SP := rfl
@[simp] theorem State.setV_DT (s : State) (v : Vector Byte 16) : (s.setV v).DT = s.DT := rfl
@[simp] theorem State.setV_ST (s : State) (v : Vector Byte 16) : (s.setV v).ST = s.ST := rfl
@[simp] theorem State.setV_key (s : State) (v : Vector Byte 16) : (s.setV v).key = s.key := rfl
@[simp] theorem State.setV_disp (s : State) (v : Vector Byte 16) : (s.setV v).disp = s.disp := rfl
@[simp] theorem State.setV_mem (s : State) (v : Vector Byte 16) : (s.setV v).mem = s.mem := rfl
@[simp] theorem State.setV_status (s : State) (v : Vector Byte 16) : (s.setV v).status = s.status := rfl
@[simp] theorem State.setV_draws (s : State) (v : Vector Byte 16) : (s.setV v).draws = s.draws := rfl
@[simp] theorem State.setV_params (s : State) (v : Vector Byte 16) : (s.setV v).params = s.params := rfl
@[simp] theorem State.setV_readByte (s : State) (v : Vector Byte 16) (c : Nat) :
    (s.setV v).readByte c = s.readByte c := rfl

/-! ### writeV -/

@[simp] theorem State.writeV_V (s : State) (x : Reg) (b : Byte) : (s.writeV x b).V = s.V.set x b := rfl
@[simp] theorem State.writeV_pc (s : State) (x : Reg) (b : Byte) : (s.writeV x b).pc = s.pc := rfl
@[simp] theorem State.writeV_I (s : State) (x : Reg) (b : Byte) : (s.writeV x b).I = s.I := rfl
@[simp] theorem State.writeV_stack (s : State) (x : Reg) (b : Byte) : (s.writeV x b).stack = s.stack := rfl
@[simp] theorem State.writeV_SP (s : State) (x : Reg) (b : Byte) : (s.writeV x b).SP = s.SP := rfl
@[simp] theorem State.writeV_DT (s : State) (x : Reg) (b : Byte) : (s.writeV x b).DT = s.DT := rfl
@[simp] theorem State.writeV_ST (s : State) (x : Reg) (b : Byte) : (s.writeV x b).ST = s.ST := rfl
@[simp] theorem State.writeV_key (s : State) (x : Reg) (b : Byte) : (s.writeV x b).key = s.key := rfl
@[simp] theorem State.writeV_disp (s : State) (x : Reg) (b : Byte) : (s.writeV x b).disp = s.disp := rfl
@[simp] theorem State.writeV_mem (s : State) (x : Reg) (b : Byte) : (s.writeV x b).mem = s.mem := rfl
@[simp] theorem State.writeV_status (s : State) (x : Reg) (b : Byte) : (s.writeV x b).status = s.status := rfl
@[simp] theorem State.writeV_draws (s : State) (x : Reg) (b : Byte) : (s.writeV x b).draws = s.draws := rfl
@[simp] theorem State.writeV_params (s : State) (x : Reg) (b : Byte) : (s.writeV x b).params = s.params := rfl
@[simp] theorem State.writeV_readByte (s : State) (x : Reg) (b : Byte) (c : Nat) :
    (s.writeV x b).readByte c = s.readByte c := rfl

/-! ### setStack -/

@[simp] theorem State.setStack_V (s : State) (k : Fin 16) (w : Word) : (s.setStack k w).V = s.V := rfl
@[simp] theorem State.setStack_pc (s : State) (k : Fin 16) (w : Word) : (s.setStack k w).pc = s.pc := rfl
@[simp] theorem State.setStack_I (s : State) (k : Fin 16) (w : Word) : (s.setStack k w).I = s.I := rfl
@[simp] theorem State.setStack_stack (s : State) (k : Fin 16) (w : Word) :
    (s.setStack k w).stack = s.stack.set k w := rfl
@[simp] theorem State.setStack_SP (s : State) (k : Fin 16) (w : Word) : (s.setStack k w).SP = s.SP := rfl
@[simp] theorem State.setStack_DT (s : State) (k : Fin 16) (w : Word) : (s.setStack k w).DT = s.DT := rfl
@[simp] theorem State.setStack_ST (s : State) (k : Fin 16) (w : Word) : (s.setStack k w).ST = s.ST := rfl
@[simp] theorem State.setStack_key (s : State) (k : Fin 16) (w : Word) : (s.setStack k w).key = s.key := rfl
@[simp] theorem State.setStack_disp (s : State) (k : Fin 16) (w : Word) : (s.setStack k w).disp = s.disp := rfl
@[simp] theorem State.setStack_mem (s : State) (k : Fin 16) (w : Word) : (s.setStack k w).mem = s.mem := rfl
@[simp] theorem State.setStack_status (s : State) (k : Fin 16) (w : Word) : (s.setStack k w).status = s.status := rfl
@[simp] theorem State.setStack_draws (s : State) (k : Fin 16) (w : Word) : (s.setStack k w).draws = s.draws := rfl
@[simp] theorem State.setStack_params (s : State) (k : Fin 16) (w : Word) : (s.setStack k w).params = s.params := rfl
@[simp] theorem State.setStack_readV (s : State) (k : Fin 16) (w : Word) (y : Reg) :
    (s.setStack k w).readV y = s.readV y := rfl
@[simp] theorem State.setStack_readByte (s : State) (k : Fin 16) (w : Word) (c : Nat) :
    (s.setStack k w).readByte c = s.readByte c := rfl

/-! ### setKey -/

@[simp] theorem State.setKey_V (s : State) (k : Fin 16) (b : Bool) : (s.setKey k b).V = s.V := rfl
@[simp] theorem State.setKey_pc (s : State) (k : Fin 16) (b : Bool) : (s.setKey k b).pc = s.pc := rfl
@[simp] theorem State.setKey_I (s : State) (k : Fin 16) (b : Bool) : (s.setKey k b).I = s.I := rfl
@[simp] theorem State.setKey_stack (s : State) (k : Fin 16) (b : Bool) : (s.setKey k b).stack = s.stack := rfl
@[simp] theorem State.setKey_SP (s : State) (k : Fin 16) (b : Bool) : (s.setKey k b).SP = s.SP := rfl
@[simp] theorem State.setKey_DT (s : State) (k : Fin 16) (b : Bool) : (s.setKey k b).DT = s.DT := rfl
@[simp] theorem State.setKey_ST (s : State) (k : Fin 16) (b : Bool) : (s.setKey k b).ST = s.ST := rfl
@[simp] theorem State.setKey_key (s : State) (k : Fin 16) (b : Bool) : (s.setKey k b).key = s.key.set k b := rfl
@[simp] theorem State.setKey_disp (s : State) (k : Fin 16) (b : Bool) : (s.setKey k b).disp = s.disp := rfl
@[simp] theorem State.setKey_mem (s : State) (k : Fin 16) (b : Bool) : (s.setKey k b).mem = s.mem := rfl
@[simp] theorem State.setKey_status (s : State) (k : Fin 16) (b : Bool) : (s.setKey k b).status = s.status := rfl
@[simp] theorem State.setKey_draws (s : State) (k : Fin 16) (b : Bool) : (s.setKey k b).draws = s.draws := rfl
@[simp] theorem State.setKey_params (s : State) (k : Fin 16) (b : Bool) : (s.setKey k b).params = s.params := rfl
@[simp] theorem State.setKey_readV (s : State) (k : Fin 16) (b : Bool) (y : Reg) :
    (s.setKey k b).readV y = s.readV y := rfl
@[simp] theorem State.setKey_readByte (s : State) (k : Fin 16) (b : Bool) (c : Nat) :
    (s.setKey k b).readByte c = s.readByte c := rfl

/-! ### writeByte -/

@[simp] theorem State.writeByte_V (s : State) (a : Nat) (v : Byte) : (s.writeByte a v).V = s.V := rfl
@[simp] theorem State.writeByte_pc (s : State) (a : Nat) (v : Byte) : (s.writeByte a v).pc = s.pc := rfl
@[simp] theorem State.writeByte_I (s : State) (a : Nat) (v : Byte) : (s.writeByte a v).I = s.I := rfl
@[simp] theorem State.writeByte_stack (s : State) (a : Nat) (v : Byte) : (s.writeByte a v).stack = s.stack := rfl
@[simp] theorem State.writeByte_SP (s : State) (a : Nat) (v : Byte) : (s.writeByte a v).SP = s.SP := rfl
@[simp] theorem State.writeByte_DT (s : State) (a : Nat) (v : Byte) : (s.writeByte a v).DT = s.DT := rfl
@[simp] theorem State.writeByte_ST (s : State) (a : Nat) (v : Byte) : (s.writeByte a v).ST = s.ST := rfl
@[simp] theorem State.writeByte_key (s : State) (a : Nat) (v : Byte) : (s.writeByte a v).key = s.key := rfl
@[simp] theorem State.writeByte_disp (s : State) (a : Nat) (v : Byte) : (s.writeByte a v).disp = s.disp := rfl
@[simp] theorem State.writeByte_mem (s : State) (a : Nat) (v : Byte) :
    (s.writeByte a v).mem = Memory.write s.params s.mem a v := rfl
@[simp] theorem State.writeByte_status (s : State) (a : Nat) (v : Byte) : (s.writeByte a v).status = s.status := rfl
@[simp] theorem State.writeByte_draws (s : State) (a : Nat) (v : Byte) : (s.writeByte a v).draws = s.draws := rfl
@[simp] theorem State.writeByte_params (s : State) (a : Nat) (v : Byte) : (s.writeByte a v).params = s.params := rfl
@[simp] theorem State.writeByte_readV (s : State) (a : Nat) (v : Byte) (y : Reg) :
    (s.writeByte a v).readV y = s.readV y := rfl

/-! ### advance -/

@[simp] theorem State.advance_V (s : State) : (s.advance).V = s.V := rfl
@[simp] theorem State.advance_pc (s : State) : (s.advance).pc = s.pc + 2 := rfl
@[simp] theorem State.advance_I (s : State) : (s.advance).I = s.I := rfl
@[simp] theorem State.advance_stack (s : State) : (s.advance).stack = s.stack := rfl
@[simp] theorem State.advance_SP (s : State) : (s.advance).SP = s.SP := rfl
@[simp] theorem State.advance_DT (s : State) : (s.advance).DT = s.DT := rfl
@[simp] theorem State.advance_ST (s : State) : (s.advance).ST = s.ST := rfl
@[simp] theorem State.advance_key (s : State) : (s.advance).key = s.key := rfl
@[simp] theorem State.advance_disp (s : State) : (s.advance).disp = s.disp := rfl
@[simp] theorem State.advance_mem (s : State) : (s.advance).mem = s.mem := rfl
@[simp] theorem State.advance_status (s : State) : (s.advance).status = s.status := rfl
@[simp] theorem State.advance_draws (s : State) : (s.advance).draws = s.draws := rfl
@[simp] theorem State.advance_params (s : State) : (s.advance).params = s.params := rfl
@[simp] theorem State.advance_readV (s : State) (y : Reg) : (s.advance).readV y = s.readV y := rfl
@[simp] theorem State.advance_readByte (s : State) (c : Nat) : (s.advance).readByte c = s.readByte c := rfl

/-! ### enterFault -/

@[simp] theorem State.enterFault_V (s : State) (kind : FaultKind) (op : Option Opcode) (addr : Option Nat) :
    (s.enterFault kind op addr).V = s.V := rfl
@[simp] theorem State.enterFault_pc (s : State) (kind : FaultKind) (op : Option Opcode) (addr : Option Nat) :
    (s.enterFault kind op addr).pc = s.pc := rfl
@[simp] theorem State.enterFault_I (s : State) (kind : FaultKind) (op : Option Opcode) (addr : Option Nat) :
    (s.enterFault kind op addr).I = s.I := rfl
@[simp] theorem State.enterFault_stack (s : State) (kind : FaultKind) (op : Option Opcode) (addr : Option Nat) :
    (s.enterFault kind op addr).stack = s.stack := rfl
@[simp] theorem State.enterFault_SP (s : State) (kind : FaultKind) (op : Option Opcode) (addr : Option Nat) :
    (s.enterFault kind op addr).SP = s.SP := rfl
@[simp] theorem State.enterFault_DT (s : State) (kind : FaultKind) (op : Option Opcode) (addr : Option Nat) :
    (s.enterFault kind op addr).DT = s.DT := rfl
@[simp] theorem State.enterFault_ST (s : State) (kind : FaultKind) (op : Option Opcode) (addr : Option Nat) :
    (s.enterFault kind op addr).ST = s.ST := rfl
@[simp] theorem State.enterFault_key (s : State) (kind : FaultKind) (op : Option Opcode) (addr : Option Nat) :
    (s.enterFault kind op addr).key = s.key := rfl
@[simp] theorem State.enterFault_disp (s : State) (kind : FaultKind) (op : Option Opcode) (addr : Option Nat) :
    (s.enterFault kind op addr).disp = s.disp := rfl
@[simp] theorem State.enterFault_mem (s : State) (kind : FaultKind) (op : Option Opcode) (addr : Option Nat) :
    (s.enterFault kind op addr).mem = s.mem := rfl
@[simp] theorem State.enterFault_status (s : State) (kind : FaultKind) (op : Option Opcode) (addr : Option Nat) :
    (s.enterFault kind op addr).status = .halted ⟨kind, s.pc, op, addr⟩ := rfl
@[simp] theorem State.enterFault_draws (s : State) (kind : FaultKind) (op : Option Opcode) (addr : Option Nat) :
    (s.enterFault kind op addr).draws = s.draws := rfl
@[simp] theorem State.enterFault_params (s : State) (kind : FaultKind) (op : Option Opcode) (addr : Option Nat) :
    (s.enterFault kind op addr).params = s.params := rfl
@[simp] theorem State.enterFault_readV (s : State) (kind : FaultKind) (op : Option Opcode) (addr : Option Nat) (y : Reg) :
    (s.enterFault kind op addr).readV y = s.readV y := rfl
@[simp] theorem State.enterFault_readByte (s : State) (kind : FaultKind) (op : Option Opcode) (addr : Option Nat) (c : Nat) :
    (s.enterFault kind op addr).readByte c = s.readByte c := rfl

/-! ### drawRnd -/

@[simp] theorem State.drawRnd_fst (s : State) : s.drawRnd.1 = Config.rndDraw s.draws := rfl
@[simp] theorem State.drawRnd_V (s : State) : s.drawRnd.2.V = s.V := rfl
@[simp] theorem State.drawRnd_pc (s : State) : s.drawRnd.2.pc = s.pc := rfl
@[simp] theorem State.drawRnd_I (s : State) : s.drawRnd.2.I = s.I := rfl
@[simp] theorem State.drawRnd_stack (s : State) : s.drawRnd.2.stack = s.stack := rfl
@[simp] theorem State.drawRnd_SP (s : State) : s.drawRnd.2.SP = s.SP := rfl
@[simp] theorem State.drawRnd_DT (s : State) : s.drawRnd.2.DT = s.DT := rfl
@[simp] theorem State.drawRnd_ST (s : State) : s.drawRnd.2.ST = s.ST := rfl
@[simp] theorem State.drawRnd_key (s : State) : s.drawRnd.2.key = s.key := rfl
@[simp] theorem State.drawRnd_disp (s : State) : s.drawRnd.2.disp = s.disp := rfl
@[simp] theorem State.drawRnd_mem (s : State) : s.drawRnd.2.mem = s.mem := rfl
@[simp] theorem State.drawRnd_status (s : State) : s.drawRnd.2.status = s.status := rfl
@[simp] theorem State.drawRnd_draws (s : State) : s.drawRnd.2.draws = s.draws + 1 := rfl
@[simp] theorem State.drawRnd_params (s : State) : s.drawRnd.2.params = s.params := rfl
@[simp] theorem State.drawRnd_readV (s : State) (y : Reg) : s.drawRnd.2.readV y = s.readV y := rfl
@[simp] theorem State.drawRnd_readByte (s : State) (c : Nat) : s.drawRnd.2.readByte c = s.readByte c := rfl

/-! ### skipIf -/

@[simp] theorem State.skipIf_pc (s : State) (c : Bool) :
    (s.skipIf c).pc = if c then s.pc + 2 else s.pc := by cases c <;> rfl
@[simp] theorem State.skipIf_V (s : State) (c : Bool) : (s.skipIf c).V = s.V := by cases c <;> rfl
@[simp] theorem State.skipIf_I (s : State) (c : Bool) : (s.skipIf c).I = s.I := by cases c <;> rfl
@[simp] theorem State.skipIf_stack (s : State) (c : Bool) : (s.skipIf c).stack = s.stack := by cases c <;> rfl
@[simp] theorem State.skipIf_SP (s : State) (c : Bool) : (s.skipIf c).SP = s.SP := by cases c <;> rfl
@[simp] theorem State.skipIf_DT (s : State) (c : Bool) : (s.skipIf c).DT = s.DT := by cases c <;> rfl
@[simp] theorem State.skipIf_ST (s : State) (c : Bool) : (s.skipIf c).ST = s.ST := by cases c <;> rfl
@[simp] theorem State.skipIf_key (s : State) (c : Bool) : (s.skipIf c).key = s.key := by cases c <;> rfl
@[simp] theorem State.skipIf_disp (s : State) (c : Bool) : (s.skipIf c).disp = s.disp := by cases c <;> rfl
@[simp] theorem State.skipIf_mem (s : State) (c : Bool) : (s.skipIf c).mem = s.mem := by cases c <;> rfl
@[simp] theorem State.skipIf_status (s : State) (c : Bool) : (s.skipIf c).status = s.status := by cases c <;> rfl
@[simp] theorem State.skipIf_draws (s : State) (c : Bool) : (s.skipIf c).draws = s.draws := by cases c <;> rfl
@[simp] theorem State.skipIf_params (s : State) (c : Bool) : (s.skipIf c).params = s.params := by cases c <;> rfl
@[simp] theorem State.skipIf_readV (s : State) (c : Bool) (y : Reg) :
    (s.skipIf c).readV y = s.readV y := by cases c <;> rfl
@[simp] theorem State.skipIf_readByte (s : State) (c : Bool) (a : Nat) :
    (s.skipIf c).readByte a = s.readByte a := by cases c <;> rfl

/-! ### writeFlagged -/

@[simp] theorem State.writeFlagged_pc (s : State) (x : Reg) (r : Byte) (f : Bool) :
    (s.writeFlagged x r f).pc = s.pc := by
  unfold State.writeFlagged; split <;> rfl
@[simp] theorem State.writeFlagged_I (s : State) (x : Reg) (r : Byte) (f : Bool) :
    (s.writeFlagged x r f).I = s.I := by
  unfold State.writeFlagged; split <;> rfl
@[simp] theorem State.writeFlagged_stack (s : State) (x : Reg) (r : Byte) (f : Bool) :
    (s.writeFlagged x r f).stack = s.stack := by
  unfold State.writeFlagged; split <;> rfl
@[simp] theorem State.writeFlagged_SP (s : State) (x : Reg) (r : Byte) (f : Bool) :
    (s.writeFlagged x r f).SP = s.SP := by
  unfold State.writeFlagged; split <;> rfl
@[simp] theorem State.writeFlagged_DT (s : State) (x : Reg) (r : Byte) (f : Bool) :
    (s.writeFlagged x r f).DT = s.DT := by
  unfold State.writeFlagged; split <;> rfl
@[simp] theorem State.writeFlagged_ST (s : State) (x : Reg) (r : Byte) (f : Bool) :
    (s.writeFlagged x r f).ST = s.ST := by
  unfold State.writeFlagged; split <;> rfl
@[simp] theorem State.writeFlagged_key (s : State) (x : Reg) (r : Byte) (f : Bool) :
    (s.writeFlagged x r f).key = s.key := by
  unfold State.writeFlagged; split <;> rfl
@[simp] theorem State.writeFlagged_disp (s : State) (x : Reg) (r : Byte) (f : Bool) :
    (s.writeFlagged x r f).disp = s.disp := by
  unfold State.writeFlagged; split <;> rfl
@[simp] theorem State.writeFlagged_mem (s : State) (x : Reg) (r : Byte) (f : Bool) :
    (s.writeFlagged x r f).mem = s.mem := by
  unfold State.writeFlagged; split <;> rfl
@[simp] theorem State.writeFlagged_status (s : State) (x : Reg) (r : Byte) (f : Bool) :
    (s.writeFlagged x r f).status = s.status := by
  unfold State.writeFlagged; split <;> rfl
@[simp] theorem State.writeFlagged_draws (s : State) (x : Reg) (r : Byte) (f : Bool) :
    (s.writeFlagged x r f).draws = s.draws := by
  unfold State.writeFlagged; split <;> rfl
@[simp] theorem State.writeFlagged_params (s : State) (x : Reg) (r : Byte) (f : Bool) :
    (s.writeFlagged x r f).params = s.params := by
  unfold State.writeFlagged; split <;> rfl
@[simp] theorem State.writeFlagged_readByte (s : State) (x : Reg) (r : Byte) (f : Bool) (a : Nat) :
    (s.writeFlagged x r f).readByte a = s.readByte a := by
  unfold State.writeFlagged; split <;> rfl

/-! ### storeBytes -/

@[simp] theorem State.storeBytes_V (s : State) (a : Nat) (bs : List Byte) :
    (s.storeBytes a bs).V = s.V := by
  induction bs generalizing s a with
  | nil => rfl
  | cons b bs ih => simp [State.storeBytes, ih]
@[simp] theorem State.storeBytes_pc (s : State) (a : Nat) (bs : List Byte) :
    (s.storeBytes a bs).pc = s.pc := by
  induction bs generalizing s a with
  | nil => rfl
  | cons b bs ih => simp [State.storeBytes, ih]
@[simp] theorem State.storeBytes_I (s : State) (a : Nat) (bs : List Byte) :
    (s.storeBytes a bs).I = s.I := by
  induction bs generalizing s a with
  | nil => rfl
  | cons b bs ih => simp [State.storeBytes, ih]
@[simp] theorem State.storeBytes_stack (s : State) (a : Nat) (bs : List Byte) :
    (s.storeBytes a bs).stack = s.stack := by
  induction bs generalizing s a with
  | nil => rfl
  | cons b bs ih => simp [State.storeBytes, ih]
@[simp] theorem State.storeBytes_SP (s : State) (a : Nat) (bs : List Byte) :
    (s.storeBytes a bs).SP = s.SP := by
  induction bs generalizing s a with
  | nil => rfl
  | cons b bs ih => simp [State.storeBytes, ih]
@[simp] theorem State.storeBytes_DT (s : State) (a : Nat) (bs : List Byte) :
    (s.storeBytes a bs).DT = s.DT := by
  induction bs generalizing s a with
  | nil => rfl
  | cons b bs ih => simp [State.storeBytes, ih]
@[simp] theorem State.storeBytes_ST (s : State) (a : Nat) (bs : List Byte) :
    (s.storeBytes a bs).ST = s.ST := by
  induction bs generalizing s a with
  | nil => rfl
  | cons b bs ih => simp [State.storeBytes, ih]
@[simp] theorem State.storeBytes_key (s : State) (a : Nat) (bs : List Byte) :
    (s.storeBytes a bs).key = s.key := by
  induction bs generalizing s a with
  | nil => rfl
  | cons b bs ih => simp [State.storeBytes, ih]
@[simp] theorem State.storeBytes_disp (s : State) (a : Nat) (bs : List Byte) :
    (s.storeBytes a bs).disp = s.disp := by
  induction bs generalizing s a with
  | nil => rfl
  | cons b bs ih => simp [State.storeBytes, ih]
@[simp] theorem State.storeBytes_status (s : State) (a : Nat) (bs : List Byte) :
    (s.storeBytes a bs).status = s.status := by
  induction bs generalizing s a with
  | nil => rfl
  | cons b bs ih => simp [State.storeBytes, ih]
@[simp] theorem State.storeBytes_draws (s : State) (a : Nat) (bs : List Byte) :
    (s.storeBytes a bs).draws = s.draws := by
  induction bs generalizing s a with
  | nil => rfl
  | cons b bs ih => simp [State.storeBytes, ih]
@[simp] theorem State.storeBytes_params (s : State) (a : Nat) (bs : List Byte) :
    (s.storeBytes a bs).params = s.params := by
  induction bs generalizing s a with
  | nil => rfl
  | cons b bs ih => simp [State.storeBytes, ih]
@[simp] theorem State.storeBytes_readV (s : State) (a : Nat) (bs : List Byte) (y : Reg) :
    (s.storeBytes a bs).readV y = s.readV y := by
  simp [State.readV]

/-! ### reading a register after a write -/

@[simp] theorem State.writeV_readV_self (s : State) (x : Reg) (b : Byte) : (s.writeV x b).readV x = b := by
  simp [State.readV, State.writeV]

theorem State.writeV_readV (s : State) (x y : Reg) (b : Byte) :
    (s.writeV x b).readV y = if y = x then b else s.readV y := by
  by_cases h : y = x
  · subst h; simp
  · have : x.val ≠ y.val := fun e => h (Fin.ext e.symm)
    simp [State.readV, State.writeV, h, Vector.getElem_set_ne, this]

@[simp] theorem State.writeV_readV_ne (s : State) {x y : Reg} (b : Byte) (h : y ≠ x) :
    (s.writeV x b).readV y = s.readV y := by simp [State.writeV_readV, h]

@[simp] theorem State.setV_readV (s : State) (v : Vector Byte 16) (y : Reg) : (s.setV v).readV y = v[y] := rfl

/-! ### the state after INITIALIZE -/

@[simp] theorem State.initial_V (p : Config.Params) : (State.initial p).V = Vector.replicate 16 0 := rfl
@[simp] theorem State.initial_pc (p : Config.Params) : (State.initial p).pc = 0x200 := rfl
@[simp] theorem State.initial_I (p : Config.Params) : (State.initial p).I = 0 := rfl
@[simp] theorem State.initial_stack (p : Config.Params) : (State.initial p).stack = Vector.replicate 16 0 := rfl
@[simp] theorem State.initial_SP (p : Config.Params) : (State.initial p).SP = 0 := rfl
@[simp] theorem State.initial_DT (p : Config.Params) : (State.initial p).DT = 0 := rfl
@[simp] theorem State.initial_ST (p : Config.Params) : (State.initial p).ST = 0 := rfl
@[simp] theorem State.initial_key (p : Config.Params) : (State.initial p).key = Vector.replicate 16 false := rfl
@[simp] theorem State.initial_disp (p : Config.Params) : (State.initial p).disp = Vector.replicate 32 0 := rfl
@[simp] theorem State.initial_mem (p : Config.Params) : (State.initial p).mem = [] := rfl
@[simp] theorem State.initial_status (p : Config.Params) : (State.initial p).status = .running := rfl
@[simp] theorem State.initial_draws (p : Config.Params) : (State.initial p).draws = 0 := rfl
@[simp] theorem State.initial_params (p : Config.Params) : (State.initial p).params = p := rfl

@[simp] theorem State.initial_readByte (p : Config.Params) (a : Nat) :
    (State.initial p).readByte a = p.resetByte a := rfl

@[simp] theorem State.initial_readV (p : Config.Params) (x : Reg) : (State.initial p).readV x = 0 := by
  simp [State.readV]

end Sys2Proof.Machine
end

