-- ==== Sys2Proof/Laws/Memory.lean ====
section
/-! SUPPORT. The laws of memory: read after write, and that every memory operation keeps the canonical form. -/

namespace Sys2Proof.Machine

open Config

/-! ## Lists of cells -/

theorem Memory.lookup_insert (m : Memory) (a c : Nat) (v : Byte) :
    (m.insert a v).lookup c = if c = a then some v else m.lookup c := by
  induction m with
  | nil =>
    by_cases h : c = a
    · simp [Memory.insert, Memory.lookup, h]
    · simp [Memory.insert, Memory.lookup, h, Ne.symm h]
  | cons cell m ih =>
    obtain ⟨k, b⟩ := cell
    simp only [Memory.insert]
    split
    · by_cases h : c = a
      · simp [Memory.lookup, h]
      · simp [Memory.lookup, h, Ne.symm h]
    · split
      · rename_i hk
        by_cases h : c = a
        · simp [Memory.lookup, h]
        · simp [Memory.lookup, h, hk, Ne.symm h]
      · rename_i hk
        by_cases hc : k = c
        · have : c ≠ a := fun e => hk (hc.trans e)
          simp [Memory.lookup, hc, this]
        · simp [Memory.lookup, hc, ih]

theorem Memory.lookup_erase_ne (m : Memory) {a c : Nat} (h : c ≠ a) : (m.erase a).lookup c = m.lookup c := by
  induction m with
  | nil => rfl
  | cons cell m ih =>
    obtain ⟨k, b⟩ := cell
    simp only [Memory.erase]
    split
    · rename_i hk
      have : k ≠ c := fun e => h (e.symm.trans hk)
      simp [Memory.lookup, this]
    · simp [Memory.lookup, ih]

/-- An address that no entry names is not found. -/
theorem Memory.lookup_none {m : Memory} {a : Nat} (h : ∀ c ∈ m, c.1 ≠ a) : m.lookup a = none := by
  induction m with
  | nil => rfl
  | cons cell m ih =>
    obtain ⟨k, b⟩ := cell
    have hk : k ≠ a := h (k, b) (by simp)
    simp [Memory.lookup, hk, ih fun c hc => h c (by simp [hc])]

/-- What is found is an entry. -/
theorem Memory.mem_of_lookup {m : Memory} {a : Nat} {v : Byte} (h : m.lookup a = some v) : (a, v) ∈ m := by
  induction m with
  | nil => simp [Memory.lookup] at h
  | cons cell m ih =>
    obtain ⟨k, b⟩ := cell
    simp only [Memory.lookup] at h
    split at h
    · rename_i hk; simp at h; simp [hk, h]
    · exact List.mem_cons_of_mem _ (ih h)

theorem Memory.lookup_erase_self {m : Memory} (hm : m.Pairwise (fun c d => c.1 < d.1)) (a : Nat) :
    (m.erase a).lookup a = none := by
  induction m with
  | nil => rfl
  | cons cell m ih =>
    obtain ⟨k, b⟩ := cell
    rw [List.pairwise_cons] at hm
    simp only [Memory.erase]
    split
    · rename_i hk
      exact Memory.lookup_none fun c hc e => absurd (hm.1 c hc) (by simp [hk, e])
    · rename_i hk
      simp [Memory.lookup, hk, ih hm.2]

theorem Memory.mem_insert {m : Memory} {a : Nat} {v : Byte} {c : Host.Cell} (h : c ∈ m.insert a v) :
    c = (a, v) ∨ c ∈ m := by
  induction m with
  | nil => simpa [Memory.insert] using h
  | cons cell m ih =>
    obtain ⟨k, b⟩ := cell
    simp only [Memory.insert] at h
    split at h
    · simpa using h
    · split at h
      · rcases List.mem_cons.1 h with h | h
        · exact .inl h
        · exact .inr (List.mem_cons_of_mem _ h)
      · rcases List.mem_cons.1 h with h | h
        · exact .inr (by simp [h])
        · exact (ih h).imp_right (List.mem_cons_of_mem _)

theorem Memory.mem_erase {m : Memory} {a : Nat} {c : Host.Cell} (h : c ∈ m.erase a) : c ∈ m := by
  induction m with
  | nil => simp [Memory.erase] at h
  | cons cell m ih =>
    obtain ⟨k, b⟩ := cell
    simp only [Memory.erase] at h
    split at h
    · exact List.mem_cons_of_mem _ h
    · rcases List.mem_cons.1 h with h | h
      · simp [h]
      · exact List.mem_cons_of_mem _ (ih h)

theorem Memory.insert_rising {m : Memory} (hm : m.Pairwise (fun c d => c.1 < d.1)) (a : Nat) (v : Byte) :
    (m.insert a v).Pairwise (fun c d => c.1 < d.1) := by
  induction m with
  | nil => simp [Memory.insert]
  | cons cell m ih =>
    obtain ⟨k, b⟩ := cell
    have hall := List.pairwise_cons.1 hm
    simp only [Memory.insert]
    split
    · rename_i hlt
      refine List.pairwise_cons.2 ⟨fun c hc => ?_, hm⟩
      rcases List.mem_cons.1 hc with rfl | hc
      · exact hlt
      · exact hlt.trans (hall.1 c hc)
    · split
      · rename_i hk
        exact List.pairwise_cons.2 ⟨fun c hc => hk ▸ hall.1 c hc, hall.2⟩
      · rename_i hlt hk
        refine List.pairwise_cons.2 ⟨fun c hc => ?_, ih hall.2⟩
        rcases Memory.mem_insert hc with rfl | hc
        · exact Nat.lt_of_le_of_ne (Nat.le_of_not_lt hlt) hk
        · exact hall.1 c hc

theorem Memory.erase_rising {m : Memory} (hm : m.Pairwise (fun c d => c.1 < d.1)) (a : Nat) :
    (m.erase a).Pairwise (fun c d => c.1 < d.1) := by
  induction m with
  | nil => simp [Memory.erase]
  | cons cell m ih =>
    obtain ⟨k, b⟩ := cell
    have hall := List.pairwise_cons.1 hm
    simp only [Memory.erase]
    split
    · exact hall.2
    · exact List.pairwise_cons.2 ⟨fun c hc => hall.1 c (Memory.mem_erase hc), ih hall.2⟩

/-! ## Read after write -/

/-- A write leaves every other address as it was, in any memory. -/
theorem Memory.read_write_ne (p : Params) (m : Memory) {a c : Nat} (v : Byte) (h : c ≠ a) :
    (m.write p a v).read p c = m.read p c := by
  unfold Memory.write Memory.read
  split
  · rw [Memory.lookup_erase_ne m h]
  · rw [Memory.lookup_insert, if_neg h]

/-- A read after a write gives the byte written. -/
theorem Memory.read_write_self {p : Params} {m : Memory} (hm : m.Pairwise (fun c d => c.1 < d.1)) (a : Nat)
    (v : Byte) : (m.write p a v).read p a = v := by
  unfold Memory.write Memory.read
  split
  · rename_i h; rw [Memory.lookup_erase_self hm]; simp [h]
  · rw [Memory.lookup_insert, if_pos rfl]; rfl

/-- A write inside memory keeps the canonical form. -/
theorem Memory.wf_write {p : Params} {m : Memory} (hm : Memory.wf p m) {a : Nat} (ha : a < memSize) (v : Byte) :
    Memory.wf p (m.write p a v) := by
  unfold Memory.write
  split
  · exact ⟨Memory.erase_rising hm.1 a, fun c hc => hm.2 c (Memory.mem_erase hc)⟩
  · rename_i hv
    refine ⟨Memory.insert_rising hm.1 a v, fun c hc => ?_⟩
    rcases Memory.mem_insert hc with rfl | hc
    · exact ⟨ha, hv⟩
    · exact hm.2 c hc

/-- The reset memory lists nothing, so it is in canonical form. -/
theorem Memory.wf_nil (p : Params) : Memory.wf p [] := by simp [Memory.wf]

/-! ## The same of the state -/

theorem State.readByte_writeByte_ne (s : State) {a c : Nat} (v : Byte) (h : c ≠ a) :
    (s.writeByte a v).readByte c = s.readByte c := Memory.read_write_ne s.params s.mem v h

theorem State.readByte_writeByte_self {s : State} (hm : Memory.wf s.params s.mem) (a : Nat) (v : Byte) :
    (s.writeByte a v).readByte a = v := Memory.read_write_self hm.1 a v

/-- Bytes stored inside memory keep the canonical form. -/
theorem State.storeBytes_wf {s : State} (hm : Memory.wf s.params s.mem) {a : Nat} {bs : List Byte}
    (ha : a + bs.length ≤ memSize) : Memory.wf s.params (s.storeBytes a bs).mem := by
  induction bs generalizing s a with
  | nil => exact hm
  | cons b bs ih =>
    have h1 : Memory.wf s.params (s.writeByte a b).mem :=
      Memory.wf_write hm (by simp only [List.length_cons] at ha; omega) b
    have := ih (s := s.writeByte a b) (a := a + 1) (by simpa using h1)
      (by simp only [List.length_cons] at ha; omega)
    simpa [State.storeBytes] using this

/-- Bytes stored at an address leave every byte outside them as it was. -/
theorem State.storeBytes_readByte_outside (s : State) (a : Nat) (bs : List Byte) {c : Nat}
    (h : c < a ∨ a + bs.length ≤ c) : (s.storeBytes a bs).readByte c = s.readByte c := by
  induction bs generalizing s a with
  | nil => rfl
  | cons b bs ih =>
    simp only [List.length_cons] at h
    rw [State.storeBytes, ih _ _ (by omega), State.readByte_writeByte_ne s b (by omega)]

/-- Each byte stored reads back, from a memory whose addresses rise. -/
theorem State.storeBytes_readByte_inside {s : State} (hm : s.mem.Pairwise (fun c d => c.1 < d.1)) (a : Nat)
    (bs : List Byte) {k : Nat} (hk : k < bs.length) : (s.storeBytes a bs).readByte (a + k) = bs[k] := by
  induction bs generalizing s a k with
  | nil => simp at hk
  | cons b bs ih =>
    have hm1 : (s.writeByte a b).mem.Pairwise (fun c d => c.1 < d.1) := by
      simp only [State.writeByte_mem]
      unfold Memory.write
      split
      · exact Memory.erase_rising hm a
      · exact Memory.insert_rising hm a b
    cases k with
    | zero =>
      rw [State.storeBytes, State.storeBytes_readByte_outside _ _ _ (by omega)]
      exact Memory.read_write_self hm a b
    | succ k =>
      have := ih hm1 (a + 1) (k := k) (by simpa using hk)
      rw [State.storeBytes, show a + (k + 1) = a + 1 + k by omega, this]
      rfl

theorem State.readBytes_length (s : State) (a n : Nat) : (s.readBytes a n).length = n := by
  induction n generalizing a with
  | zero => rfl
  | succ n ih => simp [State.readBytes, ih]

theorem State.readBytes_getElem (s : State) (a n : Nat) {k : Nat} (hk : k < (s.readBytes a n).length) :
    (s.readBytes a n)[k] = s.readByte (a + k) := by
  induction n generalizing a k with
  | zero => simp [State.readBytes] at hk
  | succ n ih =>
    cases k with
    | zero => rfl
    | succ k =>
      simp only [State.readBytes, List.getElem_cons_succ]
      rw [ih, show a + 1 + k = a + (k + 1) by omega]

/-- What every byte reads as after bytes are stored at an address. -/
theorem State.storeBytes_readByte {s : State} (hm : s.mem.Pairwise (fun c d => c.1 < d.1)) (a : Nat)
    (bs : List Byte) (c : Nat) :
    (s.storeBytes a bs).readByte c = if h : a ≤ c ∧ c < a + bs.length then bs[c - a] else s.readByte c := by
  split
  · rename_i h
    have := State.storeBytes_readByte_inside hm a bs (k := c - a) (by omega)
    rwa [show a + (c - a) = c by omega] at this
  · exact State.storeBytes_readByte_outside s a bs (by omega)

/-- Reading depends on memory and parameters alone. -/
theorem State.readByte_congr {s t : State} (hm : t.mem = s.mem) (hp : t.params = s.params) (c : Nat) :
    t.readByte c = s.readByte c := by
  unfold State.readByte
  rw [hm, hp]

/-- So does what bytes stored leave in memory. -/
theorem State.storeBytes_readByte_congr {s t : State} (hm : t.mem = s.mem) (hp : t.params = s.params) (a : Nat)
    (bs : List Byte) (c : Nat) : (t.storeBytes a bs).readByte c = (s.storeBytes a bs).readByte c := by
  induction bs generalizing s t a with
  | nil => exact State.readByte_congr hm hp c
  | cons b bs ih => exact ih (s := s.writeByte a b) (t := t.writeByte a b) (by simp [hm, hp]) (by simpa using hp) (a + 1)

/-- Bytes that read alike one by one read alike in a row. -/
theorem State.readBytes_congr {s t : State} (a n : Nat) (h : ∀ k, k < n → t.readByte (a + k) = s.readByte (a + k)) :
    t.readBytes a n = s.readBytes a n := by
  refine List.ext_getElem (by simp only [State.readBytes_length]) fun k h1 h2 => ?_
  rw [State.readBytes_getElem, State.readBytes_getElem]
  exact h k (by rwa [State.readBytes_length] at h1)

end Sys2Proof.Machine
end

