-- ==== Sys2Proof/Laws/Ops.lean ====
section
/-! SUPPORT. For each shared operation, one lemma that says everything it can do. Provers cite these instead of
unfolding the operation. -/

namespace Sys2Proof.Machine

open Config

/-! ## The fetch -/

/-- A fetch answers a word exactly when both bytes exist, and then the word is theirs, high byte first (R53, R91). -/
theorem State.fetch_ok_iff (s : State) (op : Opcode) :
    s.fetch = .ok op ↔ s.pc.toNat + 1 < 4096 ∧
      op = wordOfBytes (s.readByte s.pc.toNat) (s.readByte (s.pc.toNat + 1)) := by
  unfold State.fetch State.memRead memSize
  by_cases h0 : s.pc.toNat < 4096
  · by_cases h1 : s.pc.toNat + 1 < 4096
    · simp [h0, h1, eq_comm]
    · simp [h0, h1]
  · simp [h0]; omega

/-- A fetch fails exactly when one of its bytes does not exist, and names the first such address (R91). -/
theorem State.fetch_error_iff (s : State) (a : Nat) :
    s.fetch = .error a ↔ 4096 ≤ s.pc.toNat + 1 ∧ a = max s.pc.toNat 4096 := by
  unfold State.fetch State.memRead memSize
  by_cases h0 : s.pc.toNat < 4096
  · by_cases h1 : s.pc.toNat + 1 < 4096
    · simp [h0, h1]; omega
    · simp [h0, h1]
      constructor <;> intro h <;> omega
  · simp [h0]; omega

/-! ## Ranges -/

theorem rangeFault_none_iff (base len : Nat) : rangeFault base len = none ↔ len = 0 ∨ base + len ≤ 4096 := by
  unfold rangeFault memSize
  split <;> simp_all

theorem rangeFault_some_iff (base len a : Nat) :
    rangeFault base len = some a ↔ len ≠ 0 ∧ 4096 < base + len ∧ a = max base 4096 := by
  unfold rangeFault memSize
  by_cases h : len = 0 <;> by_cases h1 : base + len ≤ 4096 <;> simp [h, h1] <;> omega

/-! ## Operations that may take a fault -/

/-- Data in range: the body runs on the advanced state. -/
theorem withData_ok {s : State} {i : Instr} {len : Nat} {body : State → State}
    (h : len = 0 ∨ s.I.toNat + len ≤ 4096) : withData s i len body = .next (body s.advance) := by
  rw [withData, (rangeFault_none_iff _ _).2 h]

/-- Data out of range: DATA_OUT_OF_BOUNDS with the smallest such address, and nothing else. -/
theorem withData_fault {s : State} {i : Instr} {len : Nat} {body : State → State}
    (h : len ≠ 0) (h1 : 4096 < s.I.toNat + len) :
    withData s i len body =
      .next (s.enterFault .dataOutOfBounds (some (encode i)) (some (max s.I.toNat 4096))) := by
  rw [withData, (rangeFault_some_iff _ _ _).2 ⟨h, h1, rfl⟩]; rfl

/-- Everything `withData` can do. -/
theorem withData_cases {s t : State} {i : Instr} {len : Nat} {body : State → State}
    (h : withData s i len body = .next t) :
    (rangeFault s.I.toNat len = none ∧ t = body s.advance) ∨
    (∃ a, rangeFault s.I.toNat len = some a ∧
      t = s.enterFault .dataOutOfBounds (some (encode i)) (some a)) := by
  unfold withData at h
  split at h
  · rename_i a ha; exact .inr ⟨a, ha, by simpa [raise, eq_comm] using h⟩
  · rename_i ha; exact .inl ⟨ha, by simpa [eq_comm] using h⟩

/-- Everything `withKey` can do. -/
theorem withKey_cases {s t : State} {i : Instr} {x : Reg} {body : Fin 16 → State → State}
    (h : withKey s i x body = .next t) :
    (∃ k : Fin 16, k.val = (s.readV x).toNat ∧ t = body k s.advance) ∨
    (16 ≤ (s.readV x).toNat ∧
      t = s.enterFault .keyIndexOutOfRange (some (encode i)) (some (s.readV x).toNat)) := by
  unfold withKey at h
  split at h
  · rename_i hk; exact .inl ⟨⟨_, hk⟩, rfl, by simpa [eq_comm] using h⟩
  · rename_i hk; exact .inr ⟨by omega, by simpa [raise, eq_comm] using h⟩

theorem withKey_ok {s : State} {i : Instr} {x : Reg} {body : Fin 16 → State → State} (k : Fin 16)
    (h : (s.readV x).toNat = k.val) : withKey s i x body = .next (body k s.advance) := by
  have hk : (s.readV x).toNat < 16 := h ▸ k.isLt
  unfold withKey
  rw [dif_pos hk]
  simp [h]

theorem withKey_fault {s : State} {i : Instr} {x : Reg} {body : Fin 16 → State → State}
    (h : 16 ≤ (s.readV x).toNat) :
    withKey s i x body =
      .next (s.enterFault .keyIndexOutOfRange (some (encode i)) (some (s.readV x).toNat)) := by
  unfold withKey
  rw [dif_neg (by omega)]; rfl

/-- Everything `withPush` can do when it answers a next state. -/
theorem withPush_cases {s t : State} {i : Instr} {w : Word} {body : State → State}
    (h : withPush s i w body = .next t) :
    (∃ k : Fin 16, k.val = s.SP.toNat ∧ t = body ((s.advance.setStack k w).setSP (s.SP + 1))) ∨
    (s.SP.toNat = 16 ∧ t = s.enterFault .stackOverflow (some (encode i)) none) := by
  unfold withPush at h
  split at h
  · rename_i hk; exact .inl ⟨⟨_, hk⟩, rfl, by simpa [eq_comm] using h⟩
  · split at h
    · rename_i hk; exact .inr ⟨hk, by simpa [raise, eq_comm] using h⟩
    · cases h

theorem withPush_ok {s : State} {i : Instr} {w : Word} {body : State → State} (h : s.SP.toNat < 16) :
    withPush s i w body = .next (body ((s.advance.setStack ⟨s.SP.toNat, h⟩ w).setSP (s.SP + 1))) := by
  unfold withPush; rw [dif_pos h]

/-- Everything `withPop` can do when it answers a next state. -/
theorem withPop_cases {s t : State} {i : Instr} {body : Word → State → State}
    (h : withPop s i body = .next t) :
    (∃ k : Fin 16, k.val + 1 = s.SP.toNat ∧ t = body s.stack[k] (s.advance.setSP (s.SP - 1))) ∨
    (s.SP.toNat = 0 ∧ t = s.enterFault .stackUnderflow (some (encode i)) none) := by
  unfold withPop at h
  split at h
  · rename_i h0; exact .inr ⟨h0, by simpa [raise, eq_comm] using h⟩
  · split at h
    · rename_i h0 hk
      exact .inl ⟨⟨_, hk⟩, by show s.SP.toNat - 1 + 1 = _; omega, by simpa [eq_comm] using h⟩
    · cases h

theorem withPop_ok {s : State} {i : Instr} {body : Word → State → State} (k : Fin 16)
    (h : k.val + 1 = s.SP.toNat) :
    withPop s i body = .next (body s.stack[k] (s.advance.setSP (s.SP - 1))) := by
  unfold withPop
  rw [if_neg (by omega), dif_pos (by omega)]
  have : s.SP.toNat - 1 = k.val := by omega
  simp [this]

/-! ## Registers and flags -/

/-- What every register reads after a flagged write-back (R130). -/
theorem State.writeFlagged_readV (s : State) (x y : Reg) (r : Byte) (f : Bool) :
    (s.writeFlagged x r f).readV y =
      if y = x ∧ x = VF then
        (match s.params.vfWriteOrder with
          | .flagLast => flagByte f
          | .resultLast => r)
      else if y = x then r else if y = VF then flagByte f else s.readV y := by
  unfold State.writeFlagged
  cases s.params.vfWriteOrder <;> by_cases h1 : y = x <;> by_cases h2 : x = VF <;> by_cases h3 : y = VF <;>
    simp_all

theorem State.regsThrough_length (s : State) (x : Reg) : (s.regsThrough x).length = x.val + 1 := by
  simp [State.regsThrough]

theorem State.regsThrough_getElem (s : State) (x : Reg) {k : Nat} (hk : k < (s.regsThrough x).length) :
    (s.regsThrough x)[k] = s.readV ⟨k, by rw [State.regsThrough_length] at hk; omega⟩ := by
  simp [State.regsThrough, State.readV]

theorem State.loadedRegs_getElem (s : State) (x k : Reg) :
    (s.loadedRegs x)[k] = if k ≤ x then s.readByte (s.I.toNat + k.val) else s.readV k := by
  simp [State.loadedRegs, State.ea]

/-! ## Keys -/

/-- The key found is pressed, and no key below it is (R163). -/
theorem State.leastKey_some_iff (s : State) (k : Fin 16) :
    s.leastKey = some k ↔ s.key[k] = true ∧ ∀ j : Fin 16, j < k → s.key[j] = false := by
  unfold State.leastKey
  rw [List.find?_eq_some_iff_getElem]
  constructor
  · rintro ⟨hk, n, hn, hget, hlt⟩
    refine ⟨hk, fun j hj => ?_⟩
    simp at hget hn
    have hnk : n = k.val := by rw [← hget]
    have := hlt j.val (by rw [hnk]; exact hj)
    simpa using this
  · rintro ⟨hk, hlt⟩
    refine ⟨hk, k.val, by simp, by simp, fun j hj => ?_⟩
    have := hlt ⟨j, by omega⟩ (by show j < k.val; exact hj)
    simpa using this

theorem State.leastKey_none_iff (s : State) : s.leastKey = none ↔ ∀ k : Fin 16, s.key[k] = false := by
  unfold State.leastKey
  simp [List.find?_eq_none]

/-! ## The framebuffer -/

theorem Display.toggle_cell (d : Display) (a c : Fin 2048) :
    (d.toggle a).cell c = (d.cell c ^^ decide (c = a)) := by
  unfold Display.toggle Display.cell
  by_cases hr : a.val / 64 = c.val / 64
  · simp only [hr, Vector.getElem_set_self, BitVec.getLsbD_xor, BitVec.getLsbD_twoPow]
    congr 1
    have h1 : a.val % 64 < 64 := Nat.mod_lt _ (by omega)
    rw [decide_eq_true h1, Bool.true_and]
    congr 1
    rw [Fin.ext_iff]
    exact propext ⟨fun h => by omega, fun h => by omega⟩
  · have hne : c ≠ a := fun h => hr (by rw [h])
    rw [Vector.getElem_set_ne _ _ hr]
    simp [hne]

theorem Display.clear_cell (c : Fin 2048) : Display.clear.cell c = false := by
  simp [Display.clear, Display.cell]

/-- Two framebuffers with the same cells are one. -/
theorem Display.ext_cells {d e : Display} (h : ∀ c : Fin 2048, d.cell c = e.cell c) : d = e := by
  refine Vector.ext fun y hy => BitVec.eq_of_getLsbD_eq fun x hx => ?_
  have := h ⟨y * 64 + x, by omega⟩
  unfold Display.cell at this
  simpa [show (y * 64 + x) / 64 = y by omega, show (y * 64 + x) % 64 = x by omega] using this

/-- One toggle: the cell is inverted, every other cell is as it was, and the flag turns on when the cell was lit. -/
theorem toggleCell_cell (x y : Nat) (acc : Display × Bool) (c : Fin 2048) :
    (toggleCell x y acc).1.cell c = (acc.1.cell c ^^ decide (c = cellIndex x y)) :=
  Display.toggle_cell acc.1 (cellIndex x y) c

theorem toggleCell_flag (x y : Nat) (acc : Display × Bool) :
    (toggleCell x y acc).2 = (acc.2 || acc.1.cell (cellIndex x y)) := rfl

/-- Two cells inside the screen are one exactly when their coordinates are equal. -/
theorem cellIndex_eq_iff (x y a b : Nat) : cellIndex x y = cellIndex a b ↔ x % 64 = a % 64 ∧ y % 32 = b % 32 := by
  unfold cellIndex
  rw [Fin.mk.injEq]
  omega

end Sys2Proof.Machine
end

