-- ==== Sys2Proof/Laws/Draw.lean ====
section
/-! SUPPORT. What drawing does to the framebuffer and the flag, cell by cell (42_display.md rules R122, R124). -/

namespace Sys2Proof.Machine

/-- One of the columns `cs` of a sprite row at (ox, y) falls on a cell with a set bit. -/
def ColumnsCover (row : Byte) (ox y : Nat) (cs : List Nat) (c : Fin 2048) : Prop :=
  ∃ k ∈ cs, row.getLsbD (7 - k) = true ∧ c = cellIndex (ox + k) y

/-- A set bit of the sprite rows at (ox, oy) falls on a cell. -/
def RowsCover (rows : List Byte) (ox oy : Nat) (c : Fin 2048) : Prop :=
  ∃ r k, ∃ h : r < rows.length, k < 8 ∧ rows[r].getLsbD (7 - k) = true ∧ c = cellIndex (ox + k) (oy + r)

theorem columnsCover_cons (row : Byte) (ox y k : Nat) (cs : List Nat) (c : Fin 2048) :
    ColumnsCover row ox y (k :: cs) c ↔
      (row.getLsbD (7 - k) = true ∧ c = cellIndex (ox + k) y) ∨ ColumnsCover row ox y cs c := by
  simp [ColumnsCover]

/-- Distinct columns of one row fall on distinct cells. -/
theorem columnsCover_not_head {row : Byte} {ox y k : Nat} {cs : List Nat} (hk : k < 8) (hnot : k ∉ cs)
    (hlt : ∀ j ∈ cs, j < 8) : ¬ ColumnsCover row ox y cs (cellIndex (ox + k) y) := by
  rintro ⟨j, hj, -, h⟩
  rw [cellIndex_eq_iff] at h
  have := hlt j hj
  exact hnot ((show j = k by omega) ▸ hj)

/-- Everything `drawColumns` can do: covered cells are inverted, the others are as they were, and the flag turns on
when a covered cell was lit. -/
theorem drawColumns_spec (row : Byte) (ox y : Nat) (cs : List Nat) (acc : Display × Bool) (hnd : cs.Nodup)
    (hlt : ∀ k ∈ cs, k < 8) :
    (∀ c, (drawColumns row ox y cs acc).1.cell c = true ↔
      ¬ (acc.1.cell c = true ↔ ColumnsCover row ox y cs c)) ∧
    ((drawColumns row ox y cs acc).2 = true ↔
      acc.2 = true ∨ ∃ c, ColumnsCover row ox y cs c ∧ acc.1.cell c = true) := by
  induction cs generalizing acc with
  | nil => simp [drawColumns, ColumnsCover]
  | cons k cs ih =>
    rw [List.nodup_cons] at hnd
    have hk := hlt k (by simp)
    have hlt' : ∀ j ∈ cs, j < 8 := fun j hj => hlt j (by simp [hj])
    have hhead := columnsCover_not_head (row := row) (ox := ox) (y := y) hk hnd.1 hlt'
    rw [drawColumns]
    by_cases hb : row.getLsbD (7 - k) = true
    · obtain ⟨ih1, ih2⟩ := ih (toggleCell (ox + k) y acc) hnd.2 hlt'
      rw [if_pos hb]
      constructor
      · intro c
        rw [ih1, columnsCover_cons, toggleCell_cell]
        by_cases hc : c = cellIndex (ox + k) y
        · subst hc; simp [hb, hhead]
        · simp [hc]
      · rw [ih2, toggleCell_flag, Bool.or_eq_true, or_assoc]
        refine or_congr_right ⟨?_, ?_⟩
        · rintro (h | ⟨c, hc, hcell⟩)
          · exact ⟨_, (columnsCover_cons ..).2 (.inl ⟨hb, rfl⟩), h⟩
          · have hne : c ≠ cellIndex (ox + k) y := fun h => hhead (h ▸ hc)
            rw [toggleCell_cell] at hcell
            exact ⟨c, (columnsCover_cons ..).2 (.inr hc), by simpa [hne] using hcell⟩
        · rintro ⟨c, hc, hcell⟩
          rcases (columnsCover_cons ..).1 hc with ⟨-, rfl⟩ | hc
          · exact .inl hcell
          · have hne : c ≠ cellIndex (ox + k) y := fun h => hhead (h ▸ hc)
            exact .inr ⟨c, hc, by rw [toggleCell_cell]; simpa [hne] using hcell⟩
    · obtain ⟨ih1, ih2⟩ := ih acc hnd.2 hlt'
      have hcons : ∀ c, ColumnsCover row ox y (k :: cs) c ↔ ColumnsCover row ox y cs c := fun c => by
        rw [columnsCover_cons]; simp [hb]
      rw [if_neg hb]
      simp only [hcons]
      exact ⟨ih1, ih2⟩

theorem rowsCover_cons (row : Byte) (rows : List Byte) (ox oy : Nat) (c : Fin 2048) :
    RowsCover (row :: rows) ox oy c ↔ ColumnsCover row ox oy (List.range 8) c ∨ RowsCover rows ox (oy + 1) c := by
  constructor
  · rintro ⟨r, k, h, hk, hb, hc⟩
    cases r with
    | zero => exact .inl ⟨k, by simpa using hk, by simpa using hb, by simpa using hc⟩
    | succ r => exact .inr ⟨r, k, by simpa using h, hk, by simpa using hb, by rw [hc]; congr 1; omega⟩
  · rintro (⟨k, hk, hb, hc⟩ | ⟨r, k, h, hk, hb, hc⟩)
    · exact ⟨0, k, by simp, by simpa using hk, by simpa using hb, by simpa using hc⟩
    · exact ⟨r + 1, k, by simpa using h, hk, by simpa using hb, by rw [hc]; congr 1; omega⟩

/-- Rows of a sprite of at most 32 rows fall on distinct rows of the screen (R124). -/
theorem rowsCover_not_above {row : Byte} {rows : List Byte} {ox oy : Nat} {c : Fin 2048}
    (hlen : rows.length + 1 ≤ 32) (h : ColumnsCover row ox oy (List.range 8) c) :
    ¬ RowsCover rows ox (oy + 1) c := by
  obtain ⟨k, -, -, hc⟩ := h
  rintro ⟨r, k', hr, -, -, hc'⟩
  rw [hc, cellIndex_eq_iff] at hc'
  omega

/-- Everything `drawRows` can do, for a sprite of at most 32 rows: "each covered cell holds old ^ bit", and the flag
turns on when a covered cell was lit (R124). -/
theorem drawRows_spec (ox oy : Nat) (rows : List Byte) (acc : Display × Bool) (hlen : rows.length ≤ 32) :
    (∀ c, (drawRows ox oy rows acc).1.cell c = true ↔ ¬ (acc.1.cell c = true ↔ RowsCover rows ox oy c)) ∧
    ((drawRows ox oy rows acc).2 = true ↔
      acc.2 = true ∨ ∃ c, RowsCover rows ox oy c ∧ acc.1.cell c = true) := by
  induction rows generalizing oy acc with
  | nil => simp [drawRows, RowsCover]
  | cons row rows ih =>
    simp only [List.length_cons] at hlen
    obtain ⟨h1, h2⟩ := drawColumns_spec row ox oy (List.range 8) acc List.nodup_range (by simp)
    obtain ⟨i1, i2⟩ := ih (oy + 1) (drawColumns row ox oy (List.range 8) acc) (by omega)
    have hdisj : ∀ c, RowsCover rows ox (oy + 1) c → ¬ ColumnsCover row ox oy (List.range 8) c :=
      fun c hr hc => rowsCover_not_above hlen hc hr
    rw [drawRows]
    constructor
    · intro c
      rw [i1, h1, rowsCover_cons]
      by_cases hr : RowsCover rows ox (oy + 1) c
      · simp [hr, hdisj c hr]
      · simp [hr]
    · rw [i2, h2, or_assoc]
      refine or_congr_right ⟨?_, ?_⟩
      · rintro (⟨c, hc, hcell⟩ | ⟨c, hc, hcell⟩)
        · exact ⟨c, (rowsCover_cons ..).2 (.inl hc), hcell⟩
        · rw [h1] at hcell
          exact ⟨c, (rowsCover_cons ..).2 (.inr hc), by simpa [hdisj c hc] using hcell⟩
      · rintro ⟨c, hc, hcell⟩
        rcases (rowsCover_cons ..).1 hc with hc | hc
        · exact .inl ⟨c, hc, hcell⟩
        · exact .inr ⟨c, hc, by rw [h1]; simpa [hdisj c hc] using hcell⟩

/-- Every cell is the cell of its column and row. -/
theorem cellIndex_coordinates (c : Fin 2048) : c = cellIndex (c.val % 64) (c.val / 64) := by
  ext; simp [cellIndex]; omega

end Sys2Proof.Machine
end

