-- ==== Sys2Proof/Laws/PerInstr.lean ====
section
/-! SUPPORT. Families of facts about every instruction, one lemma per constructor. -/

namespace Sys2Proof.Laws.EncodesItsRow

/-- The word an instruction is encoded as matches that instruction's own row of the dispatch table (R74). -/
def Statement (i : Instr) : Prop := i.row.matches (encode i) = true

theorem of_and {i : Instr} (h : encode i &&& i.row.mask = i.row.pat) : Statement i := by
  simpa [Statement, OpcodeRow.matches] using h

theorem nop : Statement .nop := of_and (by decide)
theorem cls : Statement .cls := of_and (by decide)
theorem ret : Statement .ret := of_and (by decide)
theorem jp (nnn : BitVec 12) : Statement (.jp nnn) := of_and (encNNN_and_mask _ nnn)
theorem call (nnn : BitVec 12) : Statement (.call nnn) := of_and (encNNN_and_mask _ nnn)
theorem seImm (x : Reg) (nn : Byte) : Statement (.seImm x nn) := of_and (encXNN_and_major _ x nn)
theorem sneImm (x : Reg) (nn : Byte) : Statement (.sneImm x nn) := of_and (encXNN_and_major _ x nn)
theorem seReg (x y : Reg) : Statement (.seReg x y) := of_and (encXYN_and_mask _ x y _)
theorem ldImm (x : Reg) (nn : Byte) : Statement (.ldImm x nn) := of_and (encXNN_and_major _ x nn)
theorem addImm (x : Reg) (nn : Byte) : Statement (.addImm x nn) := of_and (encXNN_and_major _ x nn)
theorem ldReg (x y : Reg) : Statement (.ldReg x y) := of_and (encXYN_and_mask _ x y _)
theorem orReg (x y : Reg) : Statement (.orReg x y) := of_and (encXYN_and_mask _ x y _)
theorem andReg (x y : Reg) : Statement (.andReg x y) := of_and (encXYN_and_mask _ x y _)
theorem xorReg (x y : Reg) : Statement (.xorReg x y) := of_and (encXYN_and_mask _ x y _)
theorem addReg (x y : Reg) : Statement (.addReg x y) := of_and (encXYN_and_mask _ x y _)
theorem subReg (x y : Reg) : Statement (.subReg x y) := of_and (encXYN_and_mask _ x y _)
theorem shr (x y : Reg) : Statement (.shr x y) := of_and (encXYN_and_mask _ x y _)
theorem subn (x y : Reg) : Statement (.subn x y) := of_and (encXYN_and_mask _ x y _)
theorem shl (x y : Reg) : Statement (.shl x y) := of_and (encXYN_and_mask _ x y _)
theorem sneReg (x y : Reg) : Statement (.sneReg x y) := of_and (encXYN_and_mask _ x y _)
theorem ldI (nnn : BitVec 12) : Statement (.ldI nnn) := of_and (encNNN_and_mask _ nnn)
theorem jpV0 (nnn : BitVec 12) : Statement (.jpV0 nnn) := of_and (encNNN_and_mask _ nnn)
theorem rnd (x : Reg) (nn : Byte) : Statement (.rnd x nn) := of_and (encXNN_and_major _ x nn)
theorem drw (x y : Reg) (n : Nat) : Statement (.drw x y n) := of_and (encXYN_and_major _ x y _)
theorem skp (x : Reg) : Statement (.skp x) := of_and (encXNN_and_mask _ x _)
theorem sknp (x : Reg) : Statement (.sknp x) := of_and (encXNN_and_mask _ x _)
theorem ldVxDT (x : Reg) : Statement (.ldVxDT x) := of_and (encXNN_and_mask _ x _)
theorem ldVxK (x : Reg) : Statement (.ldVxK x) := of_and (encXNN_and_mask _ x _)
theorem ldDTVx (x : Reg) : Statement (.ldDTVx x) := of_and (encXNN_and_mask _ x _)
theorem ldSTVx (x : Reg) : Statement (.ldSTVx x) := of_and (encXNN_and_mask _ x _)
theorem addI (x : Reg) : Statement (.addI x) := of_and (encXNN_and_mask _ x _)
theorem ldF (x : Reg) : Statement (.ldF x) := of_and (encXNN_and_mask _ x _)
theorem ldB (x : Reg) : Statement (.ldB x) := of_and (encXNN_and_mask _ x _)
theorem ldMemVx (x : Reg) : Statement (.ldMemVx x) := of_and (encXNN_and_mask _ x _)
theorem ldVxMem (x : Reg) : Statement (.ldVxMem x) := of_and (encXNN_and_mask _ x _)

end Sys2Proof.Laws.EncodesItsRow
end

