-- ==== Sys2Proof/Tests/Slice0.lean ====
section
/-! SUPPORT. Tests. Every expected value is from spec/95_test_vectors.md (its id in the comment) or worked out from the
encoding table 30_encoding.md rule R74. -/

namespace Sys2Proof.Tests

open Sys2Proof.Machine

/-! ## WellFormed: the ill-formed term of each check is refused (R72) -/

theorem test_wellFormed_refuses_sixteen_rows : (Instr.drw 1 2 16).wellFormed = false := by decide

theorem test_wellFormed_admits_fifteen_rows : (Instr.drw 1 2 15).wellFormed = true := by decide

/-! ## Decoding: words written out from R74, the fields in bits 11:8, 7:4, 3:0 -/

theorem test_decode_fixed_words :
    decodeWord 0b0000000000000000 = .ok .nop ∧ decodeWord 0b0000000011100000 = .ok .cls ∧
    decodeWord 0b0000000011101110 = .ok .ret := by decide

theorem test_decode_nnn_words :
    decodeWord 0b0001001000001000 = .ok (.jp 0x208) ∧ decodeWord 0b0010101111001101 = .ok (.call 0xBCD) ∧
    decodeWord 0b1010001100000000 = .ok (.ldI 0x300) ∧ decodeWord 0b1011111111111111 = .ok (.jpV0 0xFFF) := by decide

theorem test_decode_xnn_words :
    decodeWord 0b0011001100000101 = .ok (.seImm 3 0x05) ∧ decodeWord 0b0100111100000001 = .ok (.sneImm 15 0x01) ∧
    decodeWord 0b0110101000111110 = .ok (.ldImm 10 0x3E) ∧ decodeWord 0b0111000011111111 = .ok (.addImm 0 0xFF) ∧
    decodeWord 0b1100001100001111 = .ok (.rnd 3 0x0F) := by decide

theorem test_decode_xy_words :
    decodeWord 0b0101000100100000 = .ok (.seReg 1 2) ∧ decodeWord 0b1001000100100000 = .ok (.sneReg 1 2) ∧
    decodeWord 0b1000000000010000 = .ok (.ldReg 0 1) ∧ decodeWord 0b1000000000010001 = .ok (.orReg 0 1) ∧
    decodeWord 0b1000000000010010 = .ok (.andReg 0 1) ∧ decodeWord 0b1000000000010011 = .ok (.xorReg 0 1) := by decide

theorem test_decode_arithmetic_words :
    decodeWord 0b1000000000010100 = .ok (.addReg 0 1) ∧ decodeWord 0b1000000000010101 = .ok (.subReg 0 1) ∧
    decodeWord 0b1000001000010110 = .ok (.shr 2 1) ∧ decodeWord 0b1000000000010111 = .ok (.subn 0 1) ∧
    decodeWord 0b1000111111111110 = .ok (.shl 15 15) ∧ decodeWord 0b1101101010110010 = .ok (.drw 10 11 2) := by decide

theorem test_decode_x_words :
    decodeWord 0b1110000110011110 = .ok (.skp 1) ∧ decodeWord 0b1110000110100001 = .ok (.sknp 1) ∧
    decodeWord 0b1111000100000111 = .ok (.ldVxDT 1) ∧ decodeWord 0b1111010100001010 = .ok (.ldVxK 5) ∧
    decodeWord 0b1111000000010101 = .ok (.ldDTVx 0) ∧ decodeWord 0b1111001000011000 = .ok (.ldSTVx 2) := by decide

theorem test_decode_x_memory_words :
    decodeWord 0b1111010100011110 = .ok (.addI 5) ∧ decodeWord 0b1111001100101001 = .ok (.ldF 3) ∧
    decodeWord 0b1111000000110011 = .ok (.ldB 0) ∧ decodeWord 0b1111000101010101 = .ok (.ldMemVx 1) ∧
    decodeWord 0b1111001001100101 = .ok (.ldVxMem 2) := by decide

/-- The illegal words of V-F1 to V-F5. -/
theorem test_decode_illegal_words :
    decodeWord 0x0123 = .error (.unimplementedOpcode 0x0123) ∧
    decodeWord 0x5121 = .error (.unimplementedOpcode 0x5121) ∧
    decodeWord 0x8008 = .error (.unimplementedOpcode 0x8008) ∧
    decodeWord 0xE09F = .error (.unimplementedOpcode 0xE09F) ∧
    decodeWord 0xF0FF = .error (.unimplementedOpcode 0xF0FF) := by decide

theorem test_decode_bytes_in_order : decode [0x6A, 0x3E, 0x00, 0xEE] = .ok (.ldImm 10 0x3E, [0x00, 0xEE]) := by decide

theorem test_decode_one_byte : decode [0x6A] = .error .truncated := by decide

theorem test_decodeTableWord : decodeTableWord 16 0xD0A5 = some (.drw 0 10 5) := by decide

theorem test_table_has_35_disjoint_rows :
    opcodeTable.length = 35 ∧
    opcodeTable.Pairwise (fun r q => r.mask &&& q.mask &&& (r.pat ^^^ q.pat) ≠ 0) := by decide

/-! ## One step each -/

/-- The reset state with a word stored big-endian at 0x200. -/
def startAt (hi lo : Byte) : State := State.reset.storeBytes 0x200 [hi, lo]

/-- What a field of the next state is, when there is a next state. -/
def after {α : Type} (r : Result) (f : State → α) : Option α :=
  match r with
  | .next t => some (f t)
  | .fault _ => none
  | .refused _ => none

/-- V-F1: the record, and pc as before. -/
theorem test_illegal_word_halts : after (step (startAt 0x01 0x23)) (fun t => (t.status, t.pc)) =
    some (.halted ⟨.unimplementedOpcode, 0x200, some 0x0123, none⟩, 0x200) := by decide

/-- V-F6. -/
theorem test_fetch_at_last_byte : after (step ((startAt 0 0).setPc 0xFFF)) (fun t => (t.status, t.pc)) =
    some (.halted ⟨.fetchOutOfBounds, 0xFFF, none, some 0x1000⟩, 0xFFF) := by decide

/-- V-F7. -/
theorem test_fetch_past_memory : after (step ((startAt 0 0).setPc 0x1000)) (fun t => t.status) =
    some (.halted ⟨.fetchOutOfBounds, 0x1000, none, some 0x1000⟩) := by decide

/-- V-F9. -/
theorem test_fetch_at_odd_pc : after (step ((State.reset.storeBytes 0x201 [0x6A, 0x3E]).setPc 0x201))
    (fun t => (t.readV 10, t.pc)) = some (0x3E, 0x203) := by decide

/-- V-F8. -/
theorem test_nop_at_top_of_memory : after (step (State.reset.setPc 0xFFE)) (fun t => (t.pc, t.status)) =
    some (0x1000, .running) := by decide

/-- V-C2. -/
theorem test_ret_on_empty_stack : after (step (startAt 0x00 0xEE)) (fun t => (t.status, t.SP, t.pc)) =
    some (.halted ⟨.stackUnderflow, 0x200, some 0x00EE, none⟩, 0, 0x200) := by decide

/-- V-C3. -/
theorem test_ret_pops : after (step (((startAt 0x00 0xEE).setStack 0 0x206).setSP 1))
    (fun t => (t.pc, t.SP, t.stack[0])) = some (0x206, 0, 0x206) := by decide

/-- V-C4. -/
theorem test_jp : after (step (startAt 0x12 0x08)) (fun t => t.pc) = some 0x208 := by decide

/-- V-C9. -/
theorem test_call_at_top_of_memory : after (exec (.call 0x300) (State.reset.setPc 0xFFE))
    (fun t => (t.stack[0], t.SP, t.pc)) = some (0x1000, 1, 0x300) := by decide

/-- V-C7. -/
theorem test_call_on_full_stack : after (step ((startAt 0x22 0x00).setSP 16)) (fun t => (t.status, t.SP, t.pc)) =
    some (.halted ⟨.stackOverflow, 0x200, some 0x2200, none⟩, 16, 0x200) := by decide

/-- V-C10, V-C11. -/
theorem test_seImm : after (step ((startAt 0x33 0x05).writeV 3 5)) (·.pc) = some 0x204 ∧
    after (step ((startAt 0x33 0x05).writeV 3 4)) (·.pc) = some 0x202 := by decide

/-- V-C12, V-C13. -/
theorem test_sneImm : after (step ((startAt 0x43 0x05).writeV 3 4)) (·.pc) = some 0x204 ∧
    after (step ((startAt 0x43 0x05).writeV 3 5)) (·.pc) = some 0x202 := by decide

/-- V-C14, V-C15. -/
theorem test_seReg : after (step (((startAt 0x51 0x20).writeV 1 0x7F).writeV 2 0x7F)) (·.pc) = some 0x204 ∧
    after (step (((startAt 0x51 0x20).writeV 1 0x7F).writeV 2 0x7E)) (·.pc) = some 0x202 := by decide

/-- V-C17, V-C18. -/
theorem test_sneReg : after (step (((startAt 0x91 0x20).writeV 1 1).writeV 2 2)) (·.pc) = some 0x204 ∧
    after (step ((startAt 0x91 0x10).writeV 1 1)) (·.pc) = some 0x202 := by decide

/-- V-C20. -/
theorem test_jpV0_is_not_masked : after (step ((startAt 0xBF 0xFF).writeV 0 0xFF)) (·.pc) = some 0x10FE := by decide

/-- V-D10. -/
theorem test_cls : after (step (((startAt 0x00 0xE0).setDisp (Vector.replicate 32 (BitVec.allOnes 64))).writeV 15 7))
    (fun t => (t.cell 0 0, t.cell 63 1, t.disp, t.readV 15)) = some (false, false, Vector.replicate 32 0, 7) := by
  decide

/-- V-D2: both edges are crossed. -/
theorem test_drw_wraps :
    after (step (((((startAt 0xD0 0x12).storeBytes 0x300 [0xFF, 0x81]).setI 0x300).writeV 0 60).writeV 1 31))
      (fun t => [t.cell 60 31, t.cell 63 31, t.cell 0 31, t.cell 3 31, t.cell 4 31, t.cell 60 0, t.cell 3 0, t.cell 61 0]) =
    some [true, true, true, true, false, true, true, false] := by decide

/-- V-D9: the origin comes from the old VF, and VF ends as the collision flag. -/
theorem test_drw_origin_in_VF :
    after (step (((((startAt 0xDF 0x11).storeBytes 0x300 [0x80]).setI 0x300).writeV 15 5).setDisp
      ((Vector.replicate 32 0).set 0 0x20))) (fun t => (t.disp, t.readV 15)) = some (Vector.replicate 32 0, 1) := by decide

/-- V-A1. -/
theorem test_ldImm : after (step (startAt 0x6A 0x3E)) (fun t => (t.readV 10, t.pc)) = some (0x3E, 0x202) := by decide

/-- W2. -/
theorem test_addImm_wraps_without_flag : after (step (((startAt 0x70 0x01).writeV 0 0xFF).writeV 15 0x55))
    (fun t => (t.readV 0, t.readV 15, t.pc)) = some (0x00, 0x55, 0x202) := by decide

/-- V-A4. -/
theorem test_ldReg : after (step ((startAt 0x80 0x10).writeV 1 0x42)) (fun t => (t.readV 0, t.readV 1)) =
    some (0x42, 0x42) := by decide

/-- V-A5. -/
theorem test_orReg : after (step (((startAt 0x80 0x11).writeV 0 0xF0).writeV 1 0x0F)) (·.readV 0) = some 0xFF := by
  decide

/-- The start of a vector with ALU_VARIANT = AS_IMPLEMENTED. -/
def asImplemented (s : State) : State := { s with params := { s.params with aluVariant := .asImplemented } }

/-- V-A6. -/
theorem test_andReg : after (step (((startAt 0x80 0x12).writeV 0 0xF0).writeV 1 0x3C)) (·.readV 0) = some 0x30 ∧
    after (step (asImplemented (((startAt 0x80 0x12).writeV 0 0xF0).writeV 1 0x3C))) (·.readV 0) = some 0xFC := by decide

/-- V-A7. -/
theorem test_xorReg : after (step (((startAt 0x80 0x13).writeV 0 0xF0).writeV 1 0x3C)) (·.readV 0) = some 0xCC ∧
    after (step (asImplemented (((startAt 0x80 0x13).writeV 0 0xF0).writeV 1 0x3C))) (·.readV 0) = some 0xFC := by decide

/-- The start of a vector with VF_WRITE_ORDER = RESULT_LAST. -/
def resultLast (s : State) : State := { s with params := { s.params with vfWriteOrder := .resultLast } }

/-- W3. -/
theorem test_addReg_carry : after (step (((startAt 0x80 0x14).writeV 0 0xFF).writeV 1 0x01))
    (fun t => (t.readV 0, t.readV 15)) = some (0x00, 1) := by decide

/-- V-A12: x = F under both orders. -/
theorem test_addReg_into_VF : after (step (((startAt 0x8F 0x14).writeV 15 0x10).writeV 1 0x02)) (·.readV 15) = some 0 ∧
    after (step (resultLast (((startAt 0x8F 0x14).writeV 15 0x10).writeV 1 0x02))) (·.readV 15) = some 0x12 := by decide

/-- V-A14. -/
theorem test_subReg_borrow : after (step (((startAt 0x80 0x15).writeV 0 0x05).writeV 1 0x07))
    (fun t => (t.readV 0, t.readV 15)) = some (0xFE, 0) ∧
    after (step (asImplemented (((startAt 0x80 0x15).writeV 0 0x05).writeV 1 0x07)))
    (fun t => (t.readV 0, t.readV 15)) = some (0x0C, 0) := by decide

/-- V-A16. -/
theorem test_subReg_no_borrow : after (step (((startAt 0x80 0x15).writeV 0 0xF0).writeV 1 0x20))
    (fun t => (t.readV 0, t.readV 15)) = some (0xD0, 1) ∧
    after (step (asImplemented (((startAt 0x80 0x15).writeV 0 0xF0).writeV 1 0x20)))
    (fun t => (t.readV 0, t.readV 15)) = some (0x10, 1) := by decide

/-- V-A21: y is ignored. -/
theorem test_shr_ignores_y : after (step (((startAt 0x82 0x16).writeV 2 0x04).writeV 1 0xFF))
    (fun t => (t.readV 2, t.readV 15, t.readV 1)) = some (0x02, 0, 0xFF) := by decide

/-- V-A20. -/
theorem test_shr_of_VF : after (step ((startAt 0x8F 0x06).writeV 15 0x06)) (·.readV 15) = some 0 ∧
    after (step (resultLast ((startAt 0x8F 0x06).writeV 15 0x06))) (·.readV 15) = some 0x03 := by decide

/-- V-A22, V-A23. -/
theorem test_subn : after (step (((startAt 0x80 0x17).writeV 0 0x03).writeV 1 0x10))
    (fun t => (t.readV 0, t.readV 15)) = some (0x0D, 1) ∧
    after (step (((startAt 0x80 0x17).writeV 0 0x01).writeV 1 0x00))
    (fun t => (t.readV 0, t.readV 15)) = some (0xFF, 0) := by decide

/-- V-A25, V-A26. -/
theorem test_shl : after (step ((startAt 0x82 0x0E).writeV 2 0x81)) (fun t => (t.readV 2, t.readV 15)) =
    some (0x02, 1) ∧
    after (step ((startAt 0x82 0x0E).writeV 2 0x7F)) (fun t => (t.readV 2, t.readV 15)) = some (0xFE, 0) := by decide

/-- V-A29, and the next draw is a fresh one. -/
theorem test_rnd : after (step (startAt 0xC3 0x00)) (fun t => (t.draws, t.pc)) = some (1, 0x202) := by decide

/-- V-A28, for a draw of 0xA7. -/
theorem test_rnd_masks (h : Config.rndDraw 0 = 0xA7) :
    after (step (startAt 0xC3 0x0F)) (·.readV 3) = some 0x07 := by
  have : after (step (startAt 0xC3 0x0F)) (·.readV 3) = some (Config.rndDraw 0 &&& 0x0F) := rfl
  rw [this, h]; rfl

/-- V-M1. -/
theorem test_ldI : after (step (startAt 0xA3 0x00)) (·.I) = some 0x300 := by decide

/-- V-M3, V-M4. -/
theorem test_addI_wraps_at_16_bits : after (step ((((startAt 0xF5 0x1E).setI 0xFFFF).writeV 5 2).writeV 15 9))
    (fun t => (t.I, t.readV 15)) = some (0x0001, 9) ∧
    after (step (((startAt 0xF5 0x1E).setI 0x0FFF).writeV 5 1)) (fun t => (t.I, t.status)) =
    some (0x1000, .running) := by decide

/-- V-M5, V-M6. -/
theorem test_ldF : after (step ((startAt 0xF3 0x29).writeV 3 0x0A)) (·.I) = some 0x0032 ∧
    after (step ((startAt 0xF3 0x29).writeV 3 0xFF)) (·.I) = some 0x04FB := by decide

/-- W9. -/
theorem test_ldB : after (step (((startAt 0xF0 0x33).writeV 0 157).setI 0x300))
    (fun t => (t.readBytes 0x300 3, t.I)) = some ([0x01, 0x05, 0x07], 0x300) := by decide

/-- V-M10, V-M11. -/
theorem test_ldB_at_the_end : after (step (((startAt 0xF0 0x33).writeV 0 255).setI 0xFFE))
    (fun t => (t.status, t.readBytes 0xFFE 2)) =
    some (.halted ⟨.dataOutOfBounds, 0x200, some 0xF033, some 0x1000⟩, [0, 0]) ∧
    after (step (((startAt 0xF0 0x33).writeV 0 9).setI 0xFFD)) (·.readBytes 0xFFD 3) = some [0, 0, 9] := by decide

/-- V-M12. -/
theorem test_ldMemVx : after (step ((((startAt 0xF1 0x55).writeV 0 0xC0).writeV 1 0x80).setI 0x300))
    (fun t => (t.readBytes 0x300 3, t.I)) = some ([0xC0, 0x80, 0x00], 0x300) := by decide

/-- V-M14. -/
theorem test_ldMemVx_out_of_bounds : after (step ((startAt 0xF1 0x55).setI 0xFFF)) (·.status) =
    some (.halted ⟨.dataOutOfBounds, 0x200, some 0xF155, some 0x1000⟩) := by decide

/-- V-M15. -/
theorem test_ldVxMem : after (step (((startAt 0xF2 0x65).storeBytes 0x300 [1, 5, 6, 7]).setI 0x300))
    (fun t => (t.readV 0, t.readV 1, t.readV 2, t.readV 3, t.I)) = some (1, 5, 6, 0, 0x300) := by decide

/-- V-M17, V-M18. -/
theorem test_ldVxMem_bounds : after (step ((startAt 0xF0 0x65).setI 0xFFF)) (·.status) = some .running ∧
    after (step ((startAt 0xF0 0x65).setI 0x2000)) (·.status) =
    some (.halted ⟨.dataOutOfBounds, 0x200, some 0xF065, some 0x2000⟩) := by decide

/-- V-K1, V-K2. -/
theorem test_skp : after (step (((startAt 0xE1 0x9E).writeV 1 3).setKey 3 true)) (·.pc) = some 0x204 ∧
    after (step ((startAt 0xE1 0x9E).writeV 1 3)) (·.pc) = some 0x202 := by decide

/-- V-K4. -/
theorem test_skp_index_out_of_range : after (step ((startAt 0xE1 0x9E).writeV 1 0x13)) (·.status) =
    some (.halted ⟨.keyIndexOutOfRange, 0x200, some 0xE19E, some 0x13⟩) := by decide

/-- V-K3. -/
theorem test_sknp : after (step ((startAt 0xE1 0xA1).writeV 1 3)) (·.pc) = some 0x204 := by decide

/-- V-K5. -/
theorem test_sknp_index_out_of_range : after (step ((startAt 0xE1 0xA1).writeV 1 0x10)) (·.status) =
    some (.halted ⟨.keyIndexOutOfRange, 0x200, some 0xE1A1, some 0x10⟩) := by decide

/-- V-K6. -/
theorem test_ldVxDT : after (step ((startAt 0xF1 0x07).setDT 5)) (fun t => (t.readV 1, t.DT)) = some (5, 5) := by decide

/-- V-K8. -/
theorem test_ldVxK_least_key : after (step (((startAt 0xF3 0x0A).setKey 4 true).setKey 9 true))
    (fun t => (t.readV 3, t.pc)) = some (4, 0x202) := by decide

/-- V-K7. -/
theorem test_ldVxK_waits : after (step (startAt 0xF3 0x0A)) (fun t => (t.readV 3, t.pc, t.status)) =
    some (0, 0x200, .running) := by decide

/-- V-K10. -/
theorem test_ldDTVx : after (step ((startAt 0xF0 0x15).writeV 0 7)) (·.DT) = some 7 := by decide

/-- V-K11. -/
theorem test_ldSTVx : after (step ((startAt 0xF2 0x18).writeV 2 0x3C)) (fun t => (t.ST, t.soundActive)) =
    some (60, true) := by decide

/-! ## The other transactions -/

/-- V-T1. -/
theorem test_tick : ((State.reset.setDT 2).setST 1).tick.1 = true ∧
    ((State.reset.setDT 2).setST 1).tick.2.DT = 1 ∧ ((State.reset.setDT 2).setST 1).tick.2.soundActive = false := by decide

/-- W12. -/
theorem test_tick_at_zero : State.reset.tick.1 = false ∧ State.reset.tick.2.DT = 0 ∧ State.reset.tick.2.ST = 0 := by
  decide

/-- V-KEY1. -/
theorem test_key_rejected : State.reset.keyPress 16 true = .error .keyIndexRejected := rfl

/-- V-L2, for any image of that length. -/
theorem test_load_too_long (bytes : List Byte) (h : bytes.length = 3585) :
    State.reset.load bytes = .error .loadOutOfBounds := by
  simp [State.load, Config.programBase, Config.memSize, h]

/-- V-L3: LOAD works in a HALTED core and leaves it HALTED. -/
theorem test_load_while_halted :
    (match (State.reset.enterFault .stackUnderflow (some 0x00EE) none).load [0x12, 0x00] with
      | .ok t => (t.readBytes 0x200 2, t.stepReturn.isSome)
      | .error _ => ([], false)) = ([0x12, 0x00], true) := by decide

/-- V-F10: a HALTED core changes nothing and returns the same record. -/
theorem test_halted_step : after (step (State.reset.enterFault .stackUnderflow (some 0x00EE) none))
    (fun t => (t.stepReturn, t.pc)) = some (some ⟨.stackUnderflow, 0x200, some 0x00EE, none⟩, 0x200) := by decide

/-! ## Reset -/

/-- W1 at one byte of each range, under the default font: the glyph "0" and zero. -/
theorem test_reset_memory : State.reset.readBytes 0 5 = [0xF0, 0x90, 0x90, 0x90, 0xF0] ∧
    State.reset.readBytes 0x4B 6 = [0xF0, 0x80, 0xF0, 0x80, 0x80, 0x00] ∧ State.reset.readByte 0xFFF = 0 := by decide

theorem test_reset_memory_is_canonical : Memory.wf State.reset.params State.reset.mem := by decide

/-! ## Witnesses: for each obligation with hypotheses, a state and operands that meet them, clause by clause, at the
boundary values -/

/-- The result is a next state that meets `p`. -/
def answers (r : Result) (p : State → Bool) : Bool := (after r p).getD false

/-- Both conditions of each skip, on equal and on unequal operands. -/
theorem witness_SkipsMovePcByTheirCondition :
    (State.reset.writeV 15 0xFF).readV 15 = 0xFF ∧ (State.reset.writeV 15 0xFF).readV 15 ≠ 0xFE ∧
    State.reset.readV 0 = State.reset.readV 15 ∧ (State.reset.writeV 0 1).readV 0 ≠ (State.reset.writeV 0 1).readV 15 := by
  decide

/-- SP at both ends of the range that pushes, and at 16. -/
theorem witness_CallPushesTheReturnAddress :
    (0 : Fin 16).val = State.reset.SP.toNat ∧ (15 : Fin 16).val = (State.reset.setSP 15).SP.toNat ∧
    (State.reset.setSP 16).SP.toNat = 16 := by decide

/-- SP at both ends of the range that pops, and at 0. -/
theorem witness_RetPopsTheReturnAddress :
    (0 : Fin 16).val + 1 = (State.reset.setSP 1).SP.toNat ∧ (15 : Fin 16).val + 1 = (State.reset.setSP 16).SP.toNat ∧
    State.reset.SP.toNat = 0 := by decide

/-- The state after the CALL is itself one that a subroutine may leave. -/
theorem witness_RetReturnsBehindTheCall :
    (State.reset.setSP 15).SP.toNat < 16 ∧
    ∃ t, exec (.call 0x300) (State.reset.setSP 15) = .next t ∧ t.stack = t.stack ∧ t.SP = t.SP := by
  exact ⟨by decide, _, rfl, rfl, rfl⟩

/-- Sprite rows up to the last byte of memory, one byte further, and none at all with I outside memory. -/
theorem witness_DrawTogglesTheCoveredCells :
    (15 ≤ 15 ∧ (State.reset.setI 4081).I.toNat + 15 ≤ 4096) ∧ ((0 : Nat) = 0 ∧ (State.reset.setI 0xFFFF).I.toNat = 65535) ∧
    ((15 : Nat) ≠ 0 ∧ 4096 < (State.reset.setI 4082).I.toNat + 15) ∧ ((1 : Nat) ≠ 0 ∧ 4096 < (State.reset.setI 4096).I.toNat + 1) := by
  decide

/-- The font's "0" at (63, 31) covers the lit cell (2, 31) across the edge, and no lit cell of a clear screen. -/
theorem witness_DrawTogglesTheCoveredCells_collision :
    (∃ cx cy, cx < 64 ∧ cy < 32 ∧ Covers ((State.reset.writeV 0 63).writeV 1 31) 0 1 5 cx cy) ∧
    (∃ cx cy, cx < 64 ∧ cy < 32 ∧ Covers (((State.reset.writeV 0 63).writeV 1 31).setDisp (Vector.replicate 32 4)) 0 1 5 cx cy ∧
      (((State.reset.writeV 0 63).writeV 1 31).setDisp (Vector.replicate 32 4)).cell cx cy = true) ∧
    (¬ ∃ cx cy, cx < 64 ∧ cy < 32 ∧ Covers State.reset 0 1 5 cx cy ∧ State.reset.cell cx cy = true) := by
  refine ⟨⟨2, 31, by decide, by decide, 0, 3, by decide, by decide, by decide, by decide, by decide⟩,
    ⟨2, 31, by decide, by decide, ⟨0, 3, by decide, by decide, by decide, by decide, by decide⟩, by decide⟩, ?_⟩
  rintro ⟨cx, cy, -, -, -, h⟩
  exact Bool.false_ne_true ((Display.clear_cell (cellIndex cx cy)).symm.trans h)

/-- A draw that lights pixels, and the state after it is one from which the second draw is stated. -/
theorem witness_DrawTwiceRestoresTheDisplay :
    ((5 : Nat) ≤ 15 ∧ State.reset.I.toNat + 5 ≤ 4096) ∧
    ∃ t, exec (.drw 0 1 5) State.reset = .next t ∧ t.I = State.reset.I ∧ (∀ a, t.readByte a = State.reset.readByte a) ∧
      t.readV 0 = State.reset.readV 0 ∧ t.readV 1 = State.reset.readV 1 ∧
      State.reset.disp.cell 0 = false ∧ t.disp.cell 0 = true :=
  ⟨by decide, _, rfl, rfl, fun _ => rfl, rfl, rfl, by decide, by decide⟩

/-- Both flag values of each instruction, x other than F and x = F, under both orders. -/
theorem witness_FlaggedResultsUnderBothOrders :
    (0xFF = ((State.reset.writeV 0 0xFF).readV 0).toNat ∧ 0 = ((State.reset.writeV 0 0xFF).readV 1).toNat) ∧
    (255 < 0xFF + 0xFF ∧ ¬ 255 < 0xFF + 0) ∧ (0xFF % 2 = 1 ∧ ¬ 0 % 2 = 1) ∧ (0 ≤ 0xFF ∧ ¬ 0xFF ≤ 0) ∧
    (128 ≤ 0xFF ∧ ¬ 128 ≤ 0) ∧ (0 : Reg) ≠ VF ∧ (15 : Reg) = VF ∧
    State.reset.params.vfWriteOrder = .flagLast ∧ (resultLast State.reset).params.vfWriteOrder = .resultLast := by decide

theorem witness_VariantResultsUnderBothVariants :
    (0xFF = ((State.reset.writeV 0 0xFF).readV 0).toNat ∧ 0 = ((State.reset.writeV 0 0xFF).readV 1).toNat) ∧
    State.reset.params.aluVariant = .conventional ∧ (asImplemented State.reset).params.aluVariant = .asImplemented := by
  decide

/-- The last I from which three digits fit, the first from which they do not, and a memory in canonical form. -/
theorem witness_BcdStoresThreeDigits :
    (Memory.wf (startAt 0xF0 0x33).params (startAt 0xF0 0x33).mem ∧ ((startAt 0xF0 0x33).setI 4093).I.toNat + 2 < 4096) ∧
    4096 ≤ (State.reset.setI 4094).I.toNat + 2 := by decide

/-- x = 15 and x = 0 at the last I that is in range and the first that is not; the first and the last register. -/
theorem witness_StoreRegistersToMemory :
    (Memory.wf (startAt 0xFF 0x55).params (startAt 0xFF 0x55).mem ∧ ((startAt 0xFF 0x55).setI 4080).I.toNat + (15 : Reg).val < 4096) ∧
    (State.reset.setI 4095).I.toNat + (0 : Reg).val < 4096 ∧ (0 : Reg) ≤ 15 ∧ (15 : Reg) ≤ 15 ∧
    4096 ≤ (State.reset.setI 4081).I.toNat + (15 : Reg).val ∧ 4096 ≤ (State.reset.setI 4096).I.toNat + (0 : Reg).val := by decide

theorem witness_LoadRegistersFromMemory :
    (State.reset.setI 4080).I.toNat + (15 : Reg).val < 4096 ∧ (State.reset.setI 4095).I.toNat + (0 : Reg).val < 4096 ∧
    (0 : Reg) ≤ 15 ∧ (15 : Reg) ≤ 15 ∧
    4096 ≤ (State.reset.setI 4081).I.toNat + (15 : Reg).val ∧ 4096 ≤ (State.reset.setI 4096).I.toNat + (0 : Reg).val := by decide

/-- The state after the store is itself a later state with the same memory and I. -/
theorem witness_LoadRestoresWhatStoreSaved :
    (Memory.wf State.reset.params State.reset.mem ∧ (State.reset.setI 4080).I.toNat + (15 : Reg).val < 4096) ∧
    ∃ t, exec (.ldMemVx 15) (State.reset.setI 4080) = .next t ∧ t.I = t.I ∧ ∀ a, t.readByte a = t.readByte a :=
  ⟨by decide, _, rfl, rfl, fun _ => rfl⟩

/-- Two bytes stored up to the last address, and the state after the store with pc moved there. -/
theorem witness_StoredBytesAreFetched :
    (Memory.wf State.reset.params State.reset.mem ∧ 1 ≤ (1 : Reg).val ∧ (State.reset.setI 4094).I.toNat + (1 : Reg).val < 4096) ∧
    ∃ t, exec (.ldMemVx 1) (State.reset.setI 4094) = .next t ∧ (t.setPc 4094).pc = (State.reset.setI 4094).I ∧
      ∀ a, (t.setPc 4094).readByte a = t.readByte a :=
  ⟨by decide, _, rfl, rfl, fun _ => rfl⟩

/-- The keys 0 and 15, pressed and not, and the first and last value that is no key. -/
theorem witness_KeySkipsTestOneKey :
    ((State.reset.readV 1).toNat = (0 : Fin 16).val ∧ State.reset.key[(0 : Fin 16)] = false) ∧
    (((State.reset.writeV 1 15).setKey 15 true).readV 1).toNat = (15 : Fin 16).val ∧
    ((State.reset.writeV 1 15).setKey 15 true).key[(15 : Fin 16)] = true ∧
    15 < ((State.reset.writeV 1 16).readV 1).toNat ∧ 15 < ((State.reset.writeV 1 255).readV 1).toNat := by decide

/-- Only key 15 pressed, keys 0 and 15 pressed, and none. -/
theorem witness_KeyWaitTakesTheLeastKey :
    ((State.reset.setKey 15 true).key[(15 : Fin 16)] = true ∧
      ∀ j : Fin 16, j < 15 → (State.reset.setKey 15 true).key[j] = false) ∧
    (((State.reset.setKey 15 true).setKey 0 true).key[(0 : Fin 16)] = true ∧
      ∀ j : Fin 16, j < 0 → ((State.reset.setKey 15 true).setKey 0 true).key[j] = false) ∧
    ∀ k : Fin 16, State.reset.key[k] = false := by decide

/-- The last pc with two bytes in memory, and the program base. -/
theorem witness_StepRunsTheDecodedInstruction :
    ((startAt 0x6A 0x3E).status = .running ∧ (startAt 0x6A 0x3E).pc.toNat + 1 < 4096 ∧
      decode [(startAt 0x6A 0x3E).readByte (startAt 0x6A 0x3E).pc.toNat, (startAt 0x6A 0x3E).readByte ((startAt 0x6A 0x3E).pc.toNat + 1)] =
        .ok (.ldImm 10 0x3E, [])) ∧
    ((State.reset.setPc 4094).pc.toNat + 1 < 4096 ∧
      decode [(State.reset.setPc 4094).readByte 4094, (State.reset.setPc 4094).readByte 4095] = .ok (.nop, [])) := by decide

/-- pc at 4094, 4095, 4096 and 65535. -/
theorem witness_FetchIsBigEndianAndBounded :
    (State.reset.setPc 4094).pc.toNat + 1 < 4096 ∧
    ((State.reset.setPc 4095).status = .running ∧ (State.reset.setPc 4095).pc.toNat = 4095) ∧
    ((State.reset.setPc 4096).status = .running ∧ 4096 ≤ (State.reset.setPc 4096).pc.toNat) ∧
    4096 ≤ (State.reset.setPc 0xFFFF).pc.toNat := by decide

/-- A word in memory at pc that is illegal, and one that is legal. -/
theorem witness_IllegalSpacesTakeTheFault :
    ((startAt 0x80 0x08).status = .running ∧ (startAt 0x80 0x08).pc.toNat + 1 < 4096 ∧
      0x8008 = ((startAt 0x80 0x08).readByte (startAt 0x80 0x08).pc.toNat).toNat * 256 +
        ((startAt 0x80 0x08).readByte ((startAt 0x80 0x08).pc.toNat + 1)).toNat ∧
      (0x8008 / 4096 = 8 ∧ 0x8008 % 16 ∈ [0x8, 0x9, 0xA, 0xB, 0xC, 0xD, 0xF])) ∧
    (0x800E = ((startAt 0x80 0x0E).readByte (startAt 0x80 0x0E).pc.toNat).toNat * 256 +
        ((startAt 0x80 0x0E).readByte ((startAt 0x80 0x0E).pc.toNat + 1)).toNat ∧
      0x800E / 4096 = 8 ∧ ¬ 0x800E % 16 ∈ [0x8, 0x9, 0xA, 0xB, 0xC, 0xD, 0xF]) := by decide

/-- A word of each illegal space, first and last of the space where it is one interval. -/
theorem witness_IllegalSpacesTakeTheFault_spaces :
    (0x0001 / 4096 = 0 ∧ 0x0001 ∉ [0x0000, 0x00E0, 0x00EE]) ∧ (0x0FFF / 4096 = 0 ∧ 0x0FFF ∉ [0x0000, 0x00E0, 0x00EE]) ∧
    (0x5001 / 4096 = 5 ∧ 0x5001 % 16 ≠ 0) ∧ (0x9FFF / 4096 = 9 ∧ 0x9FFF % 16 ≠ 0) ∧
    (0x8FFF / 4096 = 8 ∧ 0x8FFF % 16 ∈ [0x8, 0x9, 0xA, 0xB, 0xC, 0xD, 0xF]) ∧
    (0xE000 / 4096 = 0xE ∧ 0xE000 % 256 ∉ [0x9E, 0xA1]) ∧
    (0xFFFF / 4096 = 0xF ∧ 0xFFFF % 256 ∉ [0x07, 0x0A, 0x15, 0x18, 0x1E, 0x29, 0x33, 0x55, 0x65]) := by decide

theorem witness_DecodingSelectsTheUniqueRow :
    decodeWord 0xFF65 = .ok (.ldVxMem 15) ∧
    OpcodeRow.mk 0xF0FF 0xF065 ∈ opcodeTable ∧ (OpcodeRow.mk 0xF0FF 0xF065).matches 0xFF65 = true := by decide

theorem witness_DecodeOfEncodeIsTheInstruction : (Instr.drw 15 15 15).wellFormed = true ∧ Instr.nop.wellFormed = true := by
  decide

theorem witness_EncodeOfDecodeIsTheWord :
    decodeWord 0xDFFF = .ok (.drw 15 15 15) ∧ decodeWord 0x8FF6 = .ok (.shr 15 15) := by decide

/-- From a RUNNING state, and from a HALTED one whose pc cannot be fetched from. -/
theorem witness_PlacedWordRunsNext :
    (Memory.wf State.reset.params State.reset.mem ∧ decodeTableWord 16 0xF155 = some (.ldMemVx 1)) ∧
    Memory.wf ((State.reset.setPc 4095).enterFault .fetchOutOfBounds none (some 4096)).params
      ((State.reset.setPc 4095).enterFault .fetchOutOfBounds none (some 4096)).mem := by decide

/-- A step that goes on, one that faults in its fetch, one in its decode and one in its execute. -/
theorem witness_FaultingStepCommitsNothing :
    (State.reset.setPc 4095).status = .running ∧ answers (step State.reset) (fun t => decide (t.status = .running)) ∧
    answers (step (State.reset.setPc 4095)) (fun t => decide (t.status = .halted ⟨.fetchOutOfBounds, 4095, none, some 4096⟩)) ∧
    answers (step (startAt 0x01 0x23)) (fun t => decide (t.status = .halted ⟨.unimplementedOpcode, 0x200, some 0x0123, none⟩)) ∧
    answers (step (startAt 0x00 0xEE)) (fun t => decide (t.status = .halted ⟨.stackUnderflow, 0x200, some 0x00EE, none⟩)) := by
  decide

/-- A HALTED core, a transaction that is not RESET, a RUNNING core that goes on and a RUNNING core that halts. -/
theorem witness_HaltedCoreKeepsItsRecordUntilReset :
    (State.reset.enterFault .stackUnderflow (some 0x00EE) none).status =
      .halted ⟨.stackUnderflow, 0x200, some 0x00EE, none⟩ ∧ Transaction.load [0x12, 0x00] ≠ .reset ∧
    State.reset.status = .running ∧ answers (step State.reset) (fun t => decide (t.status = .running)) ∧
    answers (step (startAt 0x00 0xEE)) (fun t => decide (t.status = .halted ⟨.stackUnderflow, 0x200, some 0x00EE, none⟩)) := by
  decide

/-- Each instruction that can fault, faulting. -/
theorem witness_OnlyNamedInstructionsFault :
    State.reset.status = .running ∧ (State.reset.setSP 16).status = .running ∧
    answers (exec .ret State.reset) (fun t => decide (t.status ≠ .running)) ∧
    answers (exec (.call 0) (State.reset.setSP 16)) (fun t => decide (t.status ≠ .running)) ∧
    answers (exec (.drw 0 0 1) (State.reset.setI 4096)) (fun t => decide (t.status ≠ .running)) ∧
    answers (exec (.ldB 0) (State.reset.setI 4094)) (fun t => decide (t.status ≠ .running)) ∧
    answers (exec (.ldMemVx 1) (State.reset.setI 4095)) (fun t => decide (t.status ≠ .running)) ∧
    answers (exec (.ldVxMem 1) (State.reset.setI 4095)) (fun t => decide (t.status ≠ .running)) ∧
    answers (exec (.skp 0) (State.reset.writeV 0 16)) (fun t => decide (t.status ≠ .running)) ∧
    answers (exec (.sknp 0) (State.reset.writeV 0 16)) (fun t => decide (t.status ≠ .running)) := by decide

/-- The least SP at which RET and CALL stop. -/
theorem witness_OnlyAnImpossibleStackPointerStops :
    16 < (State.reset.setSP 17).SP.toNat ∧ exec .ret (State.reset.setSP 17) = .fault .stackPointerOutOfRange := by
  exact ⟨by decide, rfl⟩

/-- An instruction that completes and one that takes a fault. -/
theorem witness_InstructionsChangeOnlyTheirColumn :
    (∃ t, exec (.addReg 0 1) State.reset = .next t) ∧ ∃ t, exec .ret State.reset = .next t := ⟨⟨_, rfl⟩, _, rfl⟩

/-- SHR V2 with another V1 in the y field's place, RET with another entry below the top one, and LD B with another byte
outside its digits, the memory in canonical form before and after. -/
theorem witness_InstructionsReadOnlyTheirColumn :
    (ChangesOnly (fun p => p = .reg 1) State.reset (State.reset.writeV 1 0xFF) ∧
      ∀ p, p = .reg 1 → p ≠ .pc ∧ p ≠ .params ∧ ¬ mayRead State.reset (.shr 2 1) p) ∧
    (ChangesOnly (fun p => p = .stackSlot 0) (State.reset.setSP 2) ((State.reset.setSP 2).setStack 0 0x300) ∧
      ∀ p, p = .stackSlot 0 → p ≠ .pc ∧ p ≠ .params ∧ ¬ mayRead (State.reset.setSP 2) .ret p) ∧
    (ChangesOnly (fun p => p = .byte 0x300) State.reset (State.reset.writeByte 0x300 1) ∧
      (∀ p, p = .byte 0x300 → p ≠ .pc ∧ p ≠ .params ∧ ¬ mayRead State.reset (.ldB 0) p) ∧
      Memory.wf State.reset.params State.reset.mem ∧
      Memory.wf (State.reset.writeByte 0x300 1).params (State.reset.writeByte 0x300 1).mem) := by
  refine ⟨⟨?_, ?_⟩, ⟨?_, ?_⟩, ?_, ?_, by decide, by decide⟩
  · intro p hp; cases p <;> simp_all [Part.same]
  · rintro p rfl; simp [mayRead]
  · intro p hp
    cases p <;> simp_all [Part.same]
    rename_i k
    exact Vector.getElem_set_ne _ _ (by omega)
  · rintro p rfl; simp [mayRead]
  · intro p hp
    cases p <;> simp_all [Part.same]
    exact State.readByte_writeByte_ne _ _ hp
  · rintro p rfl; simp [mayRead]

/-- Two states that differ in a stale entry, with SP at both ends of the range where there is one; the step goes on. -/
theorem witness_StaleStackEntriesAreUnobservable :
    (State.reset.SP.toNat ≤ 16 ∧ SameButStaleStack State.reset (State.reset.setStack 0 0x123) ∧
      ∃ s', step State.reset = .next s') ∧
    SameButStaleStack (State.reset.setSP 15) ((State.reset.setSP 15).setStack 15 0x123) := by
  refine ⟨⟨by decide, ⟨rfl, by decide⟩, _, rfl⟩, rfl, by decide⟩

/-- The invariant holds at reset, and in a HALTED core. -/
theorem witness_StepKeepsTheInvariant :
    State.reset.Inv ∧ (State.reset.enterFault .stackUnderflow (some 0x00EE) none).Inv ∧ ∃ t, step State.reset = .next t := by
  refine ⟨⟨by decide, by decide, by decide, by decide, ?_⟩, ⟨by decide, by decide, by decide, by decide, ?_⟩, _, rfl⟩
  · intro r h; cases h
  · intro r h; cases h; exact ⟨rfl, rfl⟩

/-- With the stack full and pc as far as an instruction can take it. -/
theorem witness_StepNeverStops : ((State.reset.setSP 16).setPc 0x10FE).Inv := by
  refine ⟨by decide, by decide, by decide, by decide, ?_⟩
  intro r h; cases h

theorem witness_TransactionsKeepTheInvariant : State.reset.Inv := witness_StepKeepsTheInvariant.1

/-- The stop idiom at 0x200, and Fx0A with no key pressed. -/
theorem witness_StopIdiomAndKeyWaitStandStill :
    (startAt 0x12 0x00).runEnd = .selfJump ∧ (startAt 0xF3 0x0A).runEnd = .waitsForKey := by decide

theorem witness_CanonicalMemoriesThatReadAlikeAreEqual :
    Memory.wf Config.testRun [(0x200, 1), (0xFFF, 2)] ∧
    ∀ a, Memory.read Config.testRun [(0x200, 1), (0xFFF, 2)] a = Memory.read Config.testRun [(0x200, 1), (0xFFF, 2)] a :=
  ⟨by decide, fun _ => rfl⟩

/-- Both clauses, and the first and last address above the font. -/
theorem witness_InitializeAndResetLeaveTheResetValues :
    State.initial State.reset.params = State.initial State.reset.params ∧
    (startAt 0x12 0x00).resetCore = (startAt 0x12 0x00).resetCore ∧ 80 ≤ 80 ∧ 80 ≤ 4095 ∧ 4095 < 4096 :=
  ⟨rfl, rfl, by decide, by decide, by decide⟩

/-- The longest image that fits, and one byte more. -/
theorem witness_LoadCopiesTheImageOrNothing :
    (Memory.wf State.reset.params State.reset.mem ∧ 0x200 + (List.replicate 3584 (0x12 : Byte)).length ≤ 4096) ∧
    4096 < 0x200 + (List.replicate 3585 (0x12 : Byte)).length := by
  simp only [List.length_replicate]
  decide

/-- The first and the last key, and the least index that is none. -/
theorem witness_KeySetsOneKey : (0 : Fin 16).val = 0 ∧ (15 : Fin 16).val = 15 ∧ 15 < 16 := by decide

/-- The last cell. -/
theorem witness_DisplayReturnsTheCells : 63 < 64 ∧ 31 < 32 := by decide

/-- The first and the last character, with nothing and with a program in memory. -/
theorem witness_FontAddressPointsAtTheCharacter :
    ((∀ k : Fin 80, State.reset.readByte k.val = State.reset.params.font[k]) ∧
      (State.reset.readV 3).toNat = (0 : Fin 16).val) ∧
    ((∀ k : Fin 80, ((startAt 0xF3 0x29).writeV 3 15).readByte k.val = ((startAt 0xF3 0x29).writeV 3 15).params.font[k]) ∧
      (((startAt 0xF3 0x29).writeV 3 15).readV 3).toNat = (15 : Fin 16).val) := by decide

end Sys2Proof.Tests
end

/-! # The host's transactions keep the invariant

One rule per state operation, one per operation that may take a fault, then `exec`, `step` and `transact`. -/

/-! ## The decoder names the word it rejects -/

namespace Sys2Proof

theorem decode0_error {op : Opcode} {e : Reject} (h : decode0 op = .error e) : e = .unimplementedOpcode op := by
  unfold decode0 at h
  split at h <;> cases h
  rfl

theorem decode8_error {op : Opcode} {e : Reject} (h : decode8 op = .error e) : e = .unimplementedOpcode op := by
  unfold decode8 at h
  split at h <;> cases h
  rfl

theorem decodeE_error {op : Opcode} {e : Reject} (h : decodeE op = .error e) : e = .unimplementedOpcode op := by
  unfold decodeE at h
  split at h <;> cases h
  rfl

theorem decodeF_error {op : Opcode} {e : Reject} (h : decodeF op = .error e) : e = .unimplementedOpcode op := by
  unfold decodeF at h
  split at h <;> cases h
  rfl

theorem decodeXY0_error {op : Opcode} {i : Instr} {e : Reject} (h : decodeXY0 op i = .error e) :
    e = .unimplementedOpcode op := by
  unfold decodeXY0 at h
  split at h <;> cases h
  rfl

/-- A fetched word has both its bytes, so the one way to be no instruction is to match no row (R77). -/
theorem decodeWord_error {op : Opcode} {e : Reject} (h : decodeWord op = .error e) : e = .unimplementedOpcode op := by
  unfold decodeWord at h
  split at h
  case h_1 => exact decode0_error h
  case h_6 | h_10 => exact decodeXY0_error h
  case h_9 => exact decode8_error h
  case h_15 => exact decodeE_error h
  case h_16 => exact decodeF_error h
  all_goals cases h
  rfl

end Sys2Proof

namespace Sys2Proof.Machine

/-! ## What STEP does in each of its cases (R90, R96) -/

theorem step_of_halted {s : State} {r : FaultRecord} (h : s.status = .halted r) : step s = .next s := by
  unfold step stepState
  rw [h]

theorem step_of_running {s : State} (h : s.status = .running) : step s = stepRunning s := by
  unfold step stepState
  rw [h]

theorem stepRunning_of_fetch_error {s : State} {a : Nat} (h : s.fetch = .error a) :
    stepRunning s = .next (s.enterFault .fetchOutOfBounds none (some a)) := by
  unfold stepRunning
  rw [h]

theorem stepRunning_of_decode_error {s : State} {op : Opcode} {e : Reject} (h : s.fetch = .ok op)
    (hd : decodeWord op = .error e) :
    stepRunning s = .next (s.enterFault .unimplementedOpcode (some op) none) := by
  unfold stepRunning
  simp only [h, hd]

theorem stepRunning_of_decode_ok {s : State} {op : Opcode} {i : Instr} (h : s.fetch = .ok op)
    (hd : decodeWord op = .ok i) : stepRunning s = exec i s := by
  unfold stepRunning
  simp only [h, hd]

/-! ## The stack's faults -/

theorem withPush_fault {s : State} {i : Instr} {w : Word} {body : State → State} (h : s.SP.toNat = 16) :
    withPush s i w body = .next (s.enterFault .stackOverflow (some (encode i)) none) := by
  unfold withPush
  rw [dif_neg (by omega), if_pos h]
  rfl

theorem withPop_fault {s : State} {i : Instr} {body : Word → State → State} (h : s.SP.toNat = 0) :
    withPop s i body = .next (s.enterFault .stackUnderflow (some (encode i)) none) := by
  unfold withPop
  rw [if_pos h]
  rfl

/-! ## Addresses as naturals -/

theorem zextAddr_toNat (nnn : BitVec 12) : (zextAddr nnn).toNat = nnn.toNat :=
  BitVec.toNat_setWidth_of_le (by omega)

theorem zextByte_toNat (b : Byte) : (zextByte b).toNat = b.toNat :=
  BitVec.toNat_setWidth_of_le (by omega)

/-! ## Each operation on the state keeps the invariant -/

theorem State.statusWf_of_running {s : State} (h : s.status = .running) : s.statusWf := by
  intro r hr
  rw [h] at hr
  cases hr

namespace State.Inv

variable {s : State}

theorem writeV (hs : s.Inv) (x : Reg) (b : Byte) : (s.writeV x b).Inv :=
  ⟨hs.mem, hs.sp, hs.stack, hs.pc, hs.status⟩

theorem setV (hs : s.Inv) (v : Vector Byte 16) : (s.setV v).Inv :=
  ⟨hs.mem, hs.sp, hs.stack, hs.pc, hs.status⟩

theorem setI (hs : s.Inv) (w : Word) : (s.setI w).Inv :=
  ⟨hs.mem, hs.sp, hs.stack, hs.pc, hs.status⟩

theorem setDT (hs : s.Inv) (b : Byte) : (s.setDT b).Inv :=
  ⟨hs.mem, hs.sp, hs.stack, hs.pc, hs.status⟩

theorem setST (hs : s.Inv) (b : Byte) : (s.setST b).Inv :=
  ⟨hs.mem, hs.sp, hs.stack, hs.pc, hs.status⟩

theorem setKey (hs : s.Inv) (k : Fin 16) (b : Bool) : (s.setKey k b).Inv :=
  ⟨hs.mem, hs.sp, hs.stack, hs.pc, hs.status⟩

theorem setDisp (hs : s.Inv) (d : Display) : (s.setDisp d).Inv :=
  ⟨hs.mem, hs.sp, hs.stack, hs.pc, hs.status⟩

theorem drawRnd (hs : s.Inv) : s.drawRnd.2.Inv :=
  ⟨hs.mem, hs.sp, hs.stack, hs.pc, hs.status⟩

theorem writeFlagged (hs : s.Inv) (x : Reg) (b : Byte) (f : Bool) : (s.writeFlagged x b f).Inv := by
  unfold State.writeFlagged
  split
  · exact (hs.writeV x b).writeV VF _
  · exact (hs.writeV VF _).writeV x b

theorem setSP (hs : s.Inv) {b : Byte} (hb : b.toNat ≤ 16) : (s.setSP b).Inv :=
  ⟨hs.mem, hb, hs.stack, hs.pc, hs.status⟩

/-- A pushed word has to be an advanced pc (R26, R103). -/
theorem setStack (hs : s.Inv) (k : Fin 16) {w : Word} (hw : w.toNat ≤ 0x1000) : (s.setStack k w).Inv := by
  refine ⟨hs.mem, hs.sp, fun j => ?_, hs.pc, hs.status⟩
  have hget : (s.setStack k w).stack[j] = if k.val = j.val then w else s.stack[j] :=
    Vector.getElem_set k.isLt j.isLt
  rw [hget]
  split
  · exact hw
  · exact hs.stack j

/-- pc moves only in a RUNNING core: a HALTED one holds it at the faulting instruction (R95). -/
theorem setPc (hs : s.Inv) (hrun : s.status = .running) {w : Word} (hw : w.toNat ≤ 0x10FE) : (s.setPc w).Inv :=
  ⟨hs.mem, hs.sp, hs.stack, hw, State.statusWf_of_running hrun⟩

theorem storeBytes (hs : s.Inv) {a : Nat} {bs : List Byte} (h : a + bs.length ≤ 4096) : (s.storeBytes a bs).Inv where
  mem := by simpa using State.storeBytes_wf hs.mem h
  sp := by simpa using hs.sp
  stack := by simpa using hs.stack
  pc := by simpa using hs.pc
  status := by simpa [State.statusWf] using hs.status

theorem enterFault (hs : s.Inv) {kind : FaultKind} {op : Option Opcode} {addr : Option Nat}
    (hr : FaultRecord.wf ⟨kind, s.pc, op, addr⟩) : (s.enterFault kind op addr).Inv := by
  refine ⟨hs.mem, hs.sp, hs.stack, hs.pc, fun r h => ?_⟩
  cases h
  exact ⟨rfl, hr⟩

end State.Inv

theorem State.initial_inv (p : Config.Params) : (State.initial p).Inv where
  mem := Memory.wf_nil p
  sp := by simp
  stack := by simp
  pc := by simp
  status := State.statusWf_of_running rfl

theorem State.resetCore_inv (s : State) : s.resetCore.Inv :=
  let h := State.initial_inv s.params
  ⟨h.mem, h.sp, h.stack, h.pc, h.status⟩

/-! ## Results that stay within the invariant -/

/-- A result of `s` that goes on, to a state that meets the invariant under the parameters of `s`. -/
def StaysWithin (s : State) (r : Result) : Prop := ∃ t, r = .next t ∧ t.Inv ∧ t.params = s.params

namespace StaysWithin

variable {s : State}

theorem next {t : State} (ht : t.Inv) (hp : t.params = s.params) : StaysWithin s (.next t) := ⟨t, rfl, ht, hp⟩

theorem enterFault (hs : s.Inv) {kind : FaultKind} {op : Option Opcode} {addr : Option Nat}
    (hr : FaultRecord.wf ⟨kind, s.pc, op, addr⟩) : StaysWithin s (.next (s.enterFault kind op addr)) :=
  .next (hs.enterFault hr) rfl

theorem withData (hs : s.Inv) {i : Instr} {len : Nat} {body : State → State}
    (hok : len = 0 ∨ s.I.toNat + len ≤ 4096 → (body s.advance).Inv ∧ (body s.advance).params = s.params) :
    StaysWithin s (withData s i len body) := by
  by_cases h : len = 0 ∨ s.I.toNat + len ≤ 4096
  · rw [withData_ok h]
    exact .next (hok h).1 (hok h).2
  · rw [withData_fault (by omega) (by omega)]
    exact .enterFault hs (Nat.le_max_right _ _)

theorem withKey (hs : s.Inv) {i : Instr} {x : Reg} {body : Fin 16 → State → State}
    (hok : ∀ k, (body k s.advance).Inv ∧ (body k s.advance).params = s.params) :
    StaysWithin s (withKey s i x body) := by
  by_cases h : (s.readV x).toNat < 16
  · rw [withKey_ok ⟨_, h⟩ rfl]
    exact .next (hok _).1 (hok _).2
  · rw [withKey_fault (by omega)]
    exact .enterFault hs ⟨by omega, by omega⟩

end StaysWithin

/-! ## A RUNNING core whose instruction word exists -/

section Executing

variable {s : State} (hs : s.Inv) (hrun : s.status = .running) (hpc : s.pc.toNat + 1 < 4096)

include hpc in
theorem State.advance_pc_toNat : s.advance.pc.toNat = s.pc.toNat + 2 := by
  rw [State.advance_pc]
  bv_omega

include hs hrun hpc

theorem State.Inv.advance : s.advance.Inv :=
  hs.setPc hrun (by rw [← State.advance_pc, State.advance_pc_toNat hpc]; omega)

theorem State.Inv.advance_skipIf (c : Bool) : (s.advance.skipIf c).Inv := by
  have hadv := hs.advance hrun hpc
  unfold State.skipIf
  split
  · have hnat := State.advance_pc_toNat hpc
    exact hadv.setPc hrun (by bv_omega)
  · exact hadv

theorem execCall_staysWithin (nnn : BitVec 12) : StaysWithin s (execCall nnn s) := by
  unfold execCall
  by_cases h : s.SP.toNat < 16
  · rw [withPush_ok h]
    have hw : s.advance.pc.toNat ≤ 0x1000 := by rw [State.advance_pc_toNat hpc]; omega
    have hSP : (s.SP + 1).toNat ≤ 16 := by bv_omega
    have hpushed := ((hs.advance hrun hpc).setStack ⟨_, h⟩ hw).setSP hSP
    exact .next (hpushed.setPc hrun (by rw [zextAddr_toNat]; omega)) rfl
  · have hfull : s.SP.toNat = 16 := Nat.le_antisymm hs.sp (by omega)
    rw [withPush_fault hfull]
    exact .enterFault hs ⟨nnn, rfl⟩

theorem execRet_staysWithin : StaysWithin s (execRet s) := by
  unfold execRet
  by_cases h : s.SP.toNat = 0
  · rw [withPop_fault h]
    exact .enterFault hs rfl
  · have hle := hs.sp
    have hk : s.SP.toNat - 1 < 16 := by omega
    rw [withPop_ok ⟨_, hk⟩ (by show s.SP.toNat - 1 + 1 = _; omega)]
    have hSP : (s.SP - 1).toNat ≤ 16 := by bv_omega
    have hw := hs.stack ⟨_, hk⟩
    exact .next (((hs.advance hrun hpc).setSP hSP).setPc hrun (by omega)) rfl

theorem execLdVxK_staysWithin (x : Reg) : StaysWithin s (execLdVxK x s) := by
  have hadv := hs.advance hrun hpc
  unfold execLdVxK
  split
  · exact .next (hadv.writeV x _) rfl
  · refine .next (hadv.setPc hrun ?_) rfl
    rw [State.advance_pc, BitVec.add_sub_cancel]
    exact hs.pc

theorem execDrw_staysWithin (x y : Reg) (n : Nat) : StaysWithin s (execDrw x y n s) := by
  unfold execDrw
  exact .withData hs fun _ => ⟨((hs.advance hrun hpc).setDisp _).writeV VF _, rfl⟩

theorem execLdB_staysWithin (x : Reg) : StaysWithin s (execLdB x s) := by
  unfold execLdB
  refine .withData hs fun hrange => ⟨(hs.advance hrun hpc).storeBytes ?_, by simp⟩
  simp only [State.ea, decimalDigits, List.length_cons, List.length_nil]
  omega

theorem execLdMemVx_staysWithin (x : Reg) : StaysWithin s (execLdMemVx x s) := by
  unfold execLdMemVx
  refine .withData hs fun hrange => ⟨(hs.advance hrun hpc).storeBytes ?_, by simp⟩
  rw [State.ea, State.regsThrough_length]
  omega

theorem execLdVxMem_staysWithin (x : Reg) : StaysWithin s (execLdVxMem x s) := by
  unfold execLdVxMem
  exact .withData hs fun _ => ⟨(hs.advance hrun hpc).setV _, rfl⟩

theorem execSkp_staysWithin (x : Reg) : StaysWithin s (execSkp x s) := by
  unfold execSkp
  exact .withKey hs fun _ => ⟨hs.advance_skipIf hrun hpc _, by simp⟩

theorem execSknp_staysWithin (x : Reg) : StaysWithin s (execSknp x s) := by
  unfold execSknp
  exact .withKey hs fun _ => ⟨hs.advance_skipIf hrun hpc _, by simp⟩

/-- The jumps and skips, the faulting forms, and the straight-line instructions, which advance pc and write what the
invariant does not speak of. -/
theorem exec_staysWithin (i : Instr) : StaysWithin s (exec i s) := by
  have hadv := hs.advance hrun hpc
  have hskip := hs.advance_skipIf hrun hpc
  cases i with
  | nop => exact .next hadv rfl
  | cls => exact .next (hadv.setDisp _) rfl
  | ret => exact execRet_staysWithin hs hrun hpc
  | jp nnn => exact .next (hadv.setPc hrun (by rw [zextAddr_toNat]; omega)) rfl
  | call nnn => exact execCall_staysWithin hs hrun hpc nnn
  | seImm x nn => exact .next (hskip _) (by simp)
  | sneImm x nn => exact .next (hskip _) (by simp)
  | seReg x y => exact .next (hskip _) (by simp)
  | ldImm x nn => exact .next (hadv.writeV x _) rfl
  | addImm x nn => exact .next (hadv.writeV x _) rfl
  | ldReg x y => exact .next (hadv.writeV x _) rfl
  | orReg x y => exact .next (hadv.writeV x _) rfl
  | andReg x y => exact .next (hadv.writeV x _) rfl
  | xorReg x y => exact .next (hadv.writeV x _) rfl
  | addReg x y => exact .next (hadv.writeFlagged x _ _) (by simp)
  | subReg x y => exact .next (hadv.writeFlagged x _ _) (by simp)
  | shr x y => exact .next (hadv.writeFlagged x _ _) (by simp)
  | subn x y => exact .next (hadv.writeFlagged x _ _) (by simp)
  | shl x y => exact .next (hadv.writeFlagged x _ _) (by simp)
  | sneReg x y => exact .next (hskip _) (by simp)
  | ldI nnn => exact .next (hadv.setI _) rfl
  | jpV0 nnn =>
    refine .next (hadv.setPc hrun ?_) rfl
    rw [BitVec.toNat_add, zextByte_toNat, zextAddr_toNat]
    omega
  | rnd x nn => exact .next (hadv.drawRnd.writeV x _) rfl
  | drw x y n => exact execDrw_staysWithin hs hrun hpc x y n
  | skp x => exact execSkp_staysWithin hs hrun hpc x
  | sknp x => exact execSknp_staysWithin hs hrun hpc x
  | ldVxDT x => exact .next (hadv.writeV x _) rfl
  | ldVxK x => exact execLdVxK_staysWithin hs hrun hpc x
  | ldDTVx x => exact .next (hadv.setDT _) rfl
  | ldSTVx x => exact .next (hadv.setST _) rfl
  | addI x => exact .next (hadv.setI _) rfl
  | ldF x => exact .next (hadv.setI _) rfl
  | ldB x => exact execLdB_staysWithin hs hrun hpc x
  | ldMemVx x => exact execLdMemVx_staysWithin hs hrun hpc x
  | ldVxMem x => exact execLdVxMem_staysWithin hs hrun hpc x

end Executing

/-! ## STEP and the other transactions -/

theorem stepRunning_staysWithin {s : State} (hs : s.Inv) (hrun : s.status = .running) :
    StaysWithin s (stepRunning s) := by
  cases hf : s.fetch with
  | error a =>
    obtain ⟨hlast, ha⟩ := (s.fetch_error_iff a).1 hf
    rw [stepRunning_of_fetch_error hf]
    exact .enterFault hs ⟨by show 4095 ≤ s.pc.toNat; omega, ha⟩
  | ok op =>
    obtain ⟨hpc, -⟩ := (s.fetch_ok_iff op).1 hf
    cases hd : decodeWord op with
    | error e =>
      obtain rfl := decodeWord_error hd
      rw [stepRunning_of_decode_error hf hd]
      exact .enterFault hs hd
    | ok i =>
      rw [stepRunning_of_decode_ok hf hd]
      exact exec_staysWithin hs hrun hpc i

theorem step_staysWithin {s : State} (hs : s.Inv) : StaysWithin s (step s) := by
  cases hst : s.status with
  | running => rw [step_of_running hst]; exact stepRunning_staysWithin hs hst
  | halted r => rw [step_of_halted hst]; exact .next hs rfl

theorem transact_step {s t : State} (h : step s = .next t) :
    transact s .step = .next (.stepped t.stepReturn, t) := by
  simp only [transact, h]

theorem State.tick_inv {s : State} (hs : s.Inv) : s.tick.2.Inv := (hs.setDT _).setST _

theorem State.keyPress_inv {s t : State} (hs : s.Inv) {index : Nat} {pressed : Bool}
    (h : s.keyPress index pressed = .ok t) : t.Inv ∧ t.params = s.params := by
  unfold State.keyPress at h
  split at h <;> cases h
  exact ⟨hs.setKey _ _, rfl⟩

theorem State.load_inv {s t : State} (hs : s.Inv) {bytes : List Byte} (h : s.load bytes = .ok t) :
    t.Inv ∧ t.params = s.params := by
  unfold State.load at h
  split at h
  · cases h
  · rename_i hfits
    cases h
    exact ⟨hs.storeBytes (Nat.le_of_not_lt hfits), by simp⟩

/-- A transaction that may answer a host error keeps the invariant when its success does (R175). -/
theorem State.replyTo_inv {s : State} (hs : s.Inv) {e : Except HostError State}
    (hok : ∀ t, e = .ok t → t.Inv ∧ t.params = s.params) :
    (s.replyTo e).2.Inv ∧ (s.replyTo e).2.params = s.params := by
  cases e with
  | ok t => exact hok t rfl
  | error e => exact ⟨hs, rfl⟩

/-- Settles O43, by cases on the transaction: STEP by `step_staysWithin`, the others by the operation they are. -/
theorem transactionsKeepTheInvariant : Obligations.TransactionsKeepTheInvariant := by
  unfold Obligations.TransactionsKeepTheInvariant
  intro s tr hs
  cases tr with
  | step =>
    obtain ⟨t, hstep, ht, hp⟩ := step_staysWithin hs
    exact ⟨_, t, transact_step hstep, ht, hp⟩
  | tick => exact ⟨_, _, rfl, State.tick_inv hs, rfl⟩
  | key index pressed => exact ⟨_, _, rfl, State.replyTo_inv hs fun _ => State.keyPress_inv hs⟩
  | load bytes => exact ⟨_, _, rfl, State.replyTo_inv hs fun _ => State.load_inv hs⟩
  | reset => exact ⟨_, _, rfl, State.resetCore_inv s, rfl⟩
  | display => exact ⟨_, s, rfl, hs, rfl⟩

end Sys2Proof.Machine

/-! # The state's whole-machine claims (10_state.md rules R27, R35, R37, R38)

The reset values and the invariant first; then what stops the model; then frames: what each operation on the state
changes, and that an operation done alike on two states keeps them alike outside a set of parts. -/

namespace Sys2Proof.Machine

/-! ## The invariant and the reset values -/

/-- Settles O40, by `State.initial_inv`. -/
theorem initialStateMeetsTheInvariant : Obligations.InitialStateMeetsTheInvariant := State.initial_inv

/-- Settles O42, by `step_staysWithin`. -/
theorem stepNeverStops : Obligations.StepNeverStops := by
  unfold Obligations.StepNeverStops
  intro s hs
  obtain ⟨t, hstep, -, -⟩ := step_staysWithin hs
  exact ⟨t, hstep⟩

/-- Settles O41, by `step_staysWithin`: the one next state of a step is the one that stays within the invariant. -/
theorem stepKeepsTheInvariant : Obligations.StepKeepsTheInvariant := by
  unfold Obligations.StepKeepsTheInvariant
  intro s t hs hstep
  obtain ⟨u, hu, hinv, -⟩ := step_staysWithin hs
  cases hu.symm.trans hstep
  exact hinv

theorem resetByte_of_font (p : Config.Params) (k : Fin 80) : p.resetByte k.val = p.font[k] := dif_pos k.isLt

theorem resetByte_of_ge (p : Config.Params) {a : Nat} (h : 80 ≤ a) : p.resetByte a = 0 := dif_neg (by omega)

/-- Settles O47: INITIALIZE and RESET leave one state but for the draw counter, and its fields are read off
`State.initial`. -/
theorem initializeAndResetLeaveTheResetValues : Obligations.InitializeAndResetLeaveTheResetValues := by
  unfold Obligations.InitializeAndResetLeaveTheResetValues
  intro s u hu
  obtain ⟨n, rfl⟩ : ∃ n, u = { State.initial s.params with draws := n } := by
    rcases hu with rfl | rfl
    · exact ⟨0, rfl⟩
    · exact ⟨s.draws, rfl⟩
  exact ⟨rfl, State.initial_readV s.params, rfl, fun _ => Vector.getElem_replicate _, rfl, rfl, rfl,
    fun _ => Vector.getElem_replicate _, Display.clear_cell, resetByte_of_font s.params,
    fun _ ha _ => resetByte_of_ge s.params ha, rfl⟩

/-! ## The forms that may take a fault, as the shared operation each of them is -/

theorem exec_ret (s : State) : exec .ret s = withPop s .ret fun w t => t.setPc w := rfl

theorem exec_call (nnn : BitVec 12) (s : State) :
    exec (.call nnn) s = withPush s (.call nnn) s.advance.pc fun t => t.setPc (zextAddr nnn) := rfl

theorem exec_drw (x y : Reg) (n : Nat) (s : State) :
    exec (.drw x y n) s = withData s (.drw x y n) n fun t =>
      let drawn := drawRows (s.readV x).toNat (s.readV y).toNat (s.readBytes (s.ea 0) n) (s.disp, false)
      (t.setDisp drawn.1).writeV VF (flagByte drawn.2) := rfl

theorem exec_ldB (x : Reg) (s : State) :
    exec (.ldB x) s = withData s (.ldB x) 3 fun t => t.storeBytes (s.ea 0) (decimalDigits (s.readV x)) := rfl

theorem exec_ldMemVx (x : Reg) (s : State) :
    exec (.ldMemVx x) s = withData s (.ldMemVx x) (x.val + 1) fun t => t.storeBytes (s.ea 0) (s.regsThrough x) := rfl

theorem exec_ldVxMem (x : Reg) (s : State) :
    exec (.ldVxMem x) s = withData s (.ldVxMem x) (x.val + 1) fun t => t.setV (s.loadedRegs x) := rfl

theorem exec_skp (x : Reg) (s : State) :
    exec (.skp x) s = withKey s (.skp x) x fun k t => t.skipIf s.key[k] := rfl

theorem exec_sknp (x : Reg) (s : State) :
    exec (.sknp x) s = withKey s (.sknp x) x fun k t => t.skipIf (!s.key[k]) := rfl

/-! ## What stops the model (R27; log 7) -/

theorem withPush_stop {s : State} {i : Instr} {w : Word} {body : State → State} (h : 16 < s.SP.toNat) :
    withPush s i w body = .fault .stackPointerOutOfRange := by
  unfold withPush
  rw [dif_neg (by omega), if_neg (by omega)]

theorem withPop_stop {s : State} {i : Instr} {body : Word → State → State} (h : 16 < s.SP.toNat) :
    withPop s i body = .fault .stackPointerOutOfRange := by
  unfold withPop
  rw [if_neg (by omega), dif_neg (by omega)]

theorem withData_completes (s : State) (i : Instr) (len : Nat) (body : State → State) :
    ∃ t, withData s i len body = .next t := by
  by_cases h : len = 0 ∨ s.I.toNat + len ≤ 4096
  · exact ⟨_, withData_ok h⟩
  · exact ⟨_, withData_fault (by omega) (by omega)⟩

theorem withKey_completes (s : State) (i : Instr) (x : Reg) (body : Fin 16 → State → State) :
    ∃ t, withKey s i x body = .next t := by
  by_cases h : (s.readV x).toNat < 16
  · exact ⟨_, withKey_ok ⟨_, h⟩ rfl⟩
  · exact ⟨_, withKey_fault (by omega)⟩

theorem withPush_completes {s : State} (h : s.SP.toNat ≤ 16) (i : Instr) (w : Word) (body : State → State) :
    ∃ t, withPush s i w body = .next t := by
  by_cases hlt : s.SP.toNat < 16
  · exact ⟨_, withPush_ok hlt⟩
  · exact ⟨_, withPush_fault (by omega)⟩

theorem withPop_completes {s : State} (h : s.SP.toNat ≤ 16) (i : Instr) (body : Word → State → State) :
    ∃ t, withPop s i body = .next t := by
  by_cases h0 : s.SP.toNat = 0
  · exact ⟨_, withPop_fault h0⟩
  · have hk : s.SP.toNat - 1 < 16 := by omega
    exact ⟨_, withPop_ok ⟨_, hk⟩ (by show s.SP.toNat - 1 + 1 = _; omega)⟩

theorem execLdVxK_completes (x : Reg) (s : State) : ∃ t, execLdVxK x s = .next t := by
  unfold execLdVxK
  split
  · exact ⟨_, rfl⟩
  · exact ⟨_, rfl⟩

/-- Every instruction goes on, RET and CALL where SP is a stack pointer (R27). -/
theorem exec_completes (i : Instr) (s : State)
    (h : ¬ (16 < s.SP.toNat ∧ (i = .ret ∨ ∃ nnn, i = .call nnn))) : ∃ t, exec i s = .next t := by
  cases i with
  | ret => rw [exec_ret]; exact withPop_completes (by simpa using h) _ _
  | call nnn => rw [exec_call]; exact withPush_completes (by simpa using h) _ _ _
  | drw x y n => rw [exec_drw]; exact withData_completes _ _ _ _
  | ldB x => rw [exec_ldB]; exact withData_completes _ _ _ _
  | ldMemVx x => rw [exec_ldMemVx]; exact withData_completes _ _ _ _
  | ldVxMem x => rw [exec_ldVxMem]; exact withData_completes _ _ _ _
  | skp x => rw [exec_skp]; exact withKey_completes _ _ _ _
  | sknp x => rw [exec_sknp]; exact withKey_completes _ _ _ _
  | ldVxK x => exact execLdVxK_completes x s
  | _ => exact ⟨_, rfl⟩

theorem exec_stop {i : Instr} {s : State} (hSP : 16 < s.SP.toNat) (hi : i = .ret ∨ ∃ nnn, i = .call nnn) :
    exec i s = .fault .stackPointerOutOfRange := by
  rcases hi with rfl | ⟨nnn, rfl⟩
  · rw [exec_ret, withPop_stop hSP]
  · rw [exec_call, withPush_stop hSP]

/-- Settles O36: where SP is above 16, RET and CALL answer the model's fault (`exec_stop`); everything else goes on
(`exec_completes`). -/
theorem onlyAnImpossibleStackPointerStops : Obligations.OnlyAnImpossibleStackPointerStops := by
  unfold Obligations.OnlyAnImpossibleStackPointerStops
  intro i s
  by_cases h : 16 < s.SP.toNat ∧ (i = .ret ∨ ∃ nnn, i = .call nnn)
  · have hstop := exec_stop h.1 h.2
    exact ⟨⟨fun _ => h, fun _ => ⟨_, hstop⟩⟩, by simp [hstop]⟩
  · obtain ⟨t, ht⟩ := exec_completes i s h
    simp [ht, h]

/-! ## Frames: what each operation on the state changes -/

namespace Part

theorem same_refl (p : Part) (s : State) : p.same s s := by
  cases p <;> rfl

theorem same_symm {p : Part} {s t : State} (h : p.same s t) : p.same t s := by
  cases p <;> exact Eq.symm h

theorem same_trans {p : Part} {s t u : State} (h : p.same s t) (h' : p.same t u) : p.same s u := by
  cases p <;> exact Eq.trans h' h

end Part

namespace ChangesOnly

variable {may : Part → Prop} {s t : State}

theorem refl (may : Part → Prop) (s : State) : ChangesOnly may s s := fun p _ => p.same_refl s

theorem trans {u : State} (h : ChangesOnly may s t) (h' : ChangesOnly may t u) : ChangesOnly may s u :=
  fun p hp => Part.same_trans (h p hp) (h' p hp)

theorem setPc (h : ChangesOnly may s t) (w : Word) (hq : may .pc) : ChangesOnly may s (t.setPc w) := by
  refine h.trans fun p hp => ?_
  cases p
  case pc => exact absurd hq hp
  all_goals rfl

theorem setI (h : ChangesOnly may s t) (w : Word) (hq : may .index) : ChangesOnly may s (t.setI w) := by
  refine h.trans fun p hp => ?_
  cases p
  case index => exact absurd hq hp
  all_goals rfl

theorem setDT (h : ChangesOnly may s t) (b : Byte) (hq : may .delay) : ChangesOnly may s (t.setDT b) := by
  refine h.trans fun p hp => ?_
  cases p
  case delay => exact absurd hq hp
  all_goals rfl

theorem setST (h : ChangesOnly may s t) (b : Byte) (hq : may .sound) : ChangesOnly may s (t.setST b) := by
  refine h.trans fun p hp => ?_
  cases p
  case sound => exact absurd hq hp
  all_goals rfl

theorem setSP (h : ChangesOnly may s t) (b : Byte) (hq : may .sp) : ChangesOnly may s (t.setSP b) := by
  refine h.trans fun p hp => ?_
  cases p
  case sp => exact absurd hq hp
  all_goals rfl

theorem setStatus (h : ChangesOnly may s t) (st : Status) (hq : may .status) : ChangesOnly may s (t.setStatus st) := by
  refine h.trans fun p hp => ?_
  cases p
  case status => exact absurd hq hp
  all_goals rfl

theorem drawRnd (h : ChangesOnly may s t) (hq : may .draws) : ChangesOnly may s t.drawRnd.2 := by
  refine h.trans fun p hp => ?_
  cases p
  case draws => exact absurd hq hp
  all_goals rfl

theorem setDisp (h : ChangesOnly may s t) (d : Display) (hq : ∀ c, may (.cell c)) :
    ChangesOnly may s (t.setDisp d) := by
  refine h.trans fun p hp => ?_
  cases p
  case cell c => exact absurd (hq c) hp
  all_goals rfl

theorem writeV (h : ChangesOnly may s t) (x : Reg) (b : Byte) (hq : may (.reg x)) :
    ChangesOnly may s (t.writeV x b) := by
  refine h.trans fun p hp => ?_
  cases p
  case reg y => exact t.writeV_readV_ne b fun e => hp (e ▸ hq)
  all_goals rfl

/-- A register file that differs only in registers that may change. -/
theorem setV (h : ChangesOnly may s t) {v : Vector Byte 16} (hq : ∀ y : Reg, ¬ may (.reg y) → v[y] = t.readV y) :
    ChangesOnly may s (t.setV v) := by
  refine h.trans fun p hp => ?_
  cases p
  case reg y => exact hq y hp
  all_goals rfl

theorem setStack (h : ChangesOnly may s t) (k : Fin 16) (w : Word) (hq : may (.stackSlot k)) :
    ChangesOnly may s (t.setStack k w) := by
  refine h.trans fun p hp => ?_
  cases p
  case stackSlot j =>
    have hne : k.val ≠ j.val := fun e => hp (Fin.ext e ▸ hq)
    exact Vector.getElem_set_ne k.isLt j.isLt hne
  all_goals rfl

theorem writeByte (h : ChangesOnly may s t) (a : Nat) (v : Byte) (hq : may (.byte a)) :
    ChangesOnly may s (t.writeByte a v) := by
  refine h.trans fun p hp => ?_
  cases p
  case byte c => exact t.readByte_writeByte_ne v fun e => hp (e ▸ hq)
  all_goals rfl

theorem storeBytes (h : ChangesOnly may s t) (a : Nat) (bs : List Byte)
    (hq : ∀ k, k < bs.length → may (.byte (a + k))) : ChangesOnly may s (t.storeBytes a bs) := by
  induction bs generalizing t a with
  | nil => exact h
  | cons b bs ih =>
    refine ih (h.writeByte a b (hq 0 (by simp))) (a + 1) fun k hk => ?_
    rw [Nat.add_right_comm]
    exact hq (k + 1) (by simpa using hk)

theorem advance (h : ChangesOnly may s t) (hq : may .pc) : ChangesOnly may s t.advance := h.setPc _ hq

theorem skipIf (h : ChangesOnly may s t) (c : Bool) (hq : may .pc) : ChangesOnly may s (t.skipIf c) := by
  unfold State.skipIf
  split
  · exact h.setPc _ hq
  · exact h

theorem writeFlagged (h : ChangesOnly may s t) (x : Reg) (b : Byte) (f : Bool) (hx : may (.reg x))
    (hVF : may (.reg VF)) : ChangesOnly may s (t.writeFlagged x b f) := by
  unfold State.writeFlagged
  split
  · exact (h.writeV x b hx).writeV VF _ hVF
  · exact (h.writeV VF _ hVF).writeV x b hx

/-- Taking a fault changes status alone (R95). -/
theorem enterFault (s : State) (kind : FaultKind) (op : Option Opcode) (addr : Option Nat) :
    ChangesOnly (fun p => p = .status) s (s.enterFault kind op addr) := (refl _ s).setStatus _ rfl

end ChangesOnly

/-! ## What each instruction changes (the "written by" column of R37) -/

/-- A result of `s` that, where it goes on, has changed only parts in `may`, or taken a fault. -/
def KeepsColumn (may : Part → Prop) (s : State) (r : Result) : Prop :=
  ∀ t, r = .next t → ChangesOnly may s t ∨ ChangesOnly (fun p => p = .status) s t

namespace KeepsColumn

variable {may : Part → Prop} {s : State}

theorem next {t : State} (h : ChangesOnly may s t) : KeepsColumn may s (.next t) := by
  intro u hu
  cases hu
  exact .inl h

theorem withData {i : Instr} {len : Nat} {body : State → State} (h : ChangesOnly may s (body s.advance)) :
    KeepsColumn may s (withData s i len body) := by
  intro t ht
  rcases withData_cases ht with ⟨-, rfl⟩ | ⟨a, -, rfl⟩
  · exact .inl h
  · exact .inr (.enterFault s _ _ _)

theorem withKey {i : Instr} {x : Reg} {body : Fin 16 → State → State}
    (h : ∀ k, ChangesOnly may s (body k s.advance)) : KeepsColumn may s (withKey s i x body) := by
  intro t ht
  rcases withKey_cases ht with ⟨k, -, rfl⟩ | ⟨-, rfl⟩
  · exact .inl (h k)
  · exact .inr (.enterFault s _ _ _)

theorem withPush {i : Instr} {w : Word} {body : State → State}
    (h : ∀ k : Fin 16, k.val = s.SP.toNat →
      ChangesOnly may s (body ((s.advance.setStack k w).setSP (s.SP + 1)))) :
    KeepsColumn may s (withPush s i w body) := by
  intro t ht
  rcases withPush_cases ht with ⟨k, hk, rfl⟩ | ⟨-, rfl⟩
  · exact .inl (h k hk)
  · exact .inr (.enterFault s _ _ _)

theorem withPop {i : Instr} {body : Word → State → State}
    (h : ∀ w, ChangesOnly may s (body w (s.advance.setSP (s.SP - 1)))) : KeepsColumn may s (withPop s i body) := by
  intro t ht
  rcases withPop_cases ht with ⟨k, -, rfl⟩ | ⟨-, rfl⟩
  · exact .inl (h _)
  · exact .inr (.enterFault s _ _ _)

end KeepsColumn

theorem execLdVxK_keepsColumn (x : Reg) (s : State) :
    KeepsColumn (mayChange s (.ldVxK x)) s (execLdVxK x s) := by
  have hadv : ChangesOnly (mayChange s (.ldVxK x)) s s.advance := (ChangesOnly.refl _ s).advance (.inl rfl)
  unfold execLdVxK
  split
  · exact .next (hadv.writeV x _ (.inr rfl))
  · exact .next (hadv.setPc _ (.inl rfl))

theorem exec_keepsColumn (i : Instr) (s : State) : KeepsColumn (mayChange s i) s (exec i s) := by
  have hadv : mayChange s i .pc → ChangesOnly (mayChange s i) s s.advance := (ChangesOnly.refl _ s).advance
  cases i with
  | nop => exact .next (hadv rfl)
  | cls => exact .next ((hadv (.inl rfl)).setDisp _ fun c => .inr ⟨c, rfl⟩)
  | ret =>
    rw [exec_ret]
    exact .withPop fun w => ((hadv (.inl rfl)).setSP _ (.inr rfl)).setPc w (.inl rfl)
  | call nnn =>
    rw [exec_call]
    exact .withPush fun k hk =>
      (((hadv (.inl rfl)).setStack k _ (.inr (.inr ⟨k, hk, rfl⟩))).setSP _ (.inr (.inl rfl))).setPc _ (.inl rfl)
  | jp nnn => exact .next ((hadv rfl).setPc _ rfl)
  | jpV0 nnn => exact .next ((hadv rfl).setPc _ rfl)
  | seImm x nn => exact .next ((hadv rfl).skipIf _ rfl)
  | sneImm x nn => exact .next ((hadv rfl).skipIf _ rfl)
  | seReg x y => exact .next ((hadv rfl).skipIf _ rfl)
  | sneReg x y => exact .next ((hadv rfl).skipIf _ rfl)
  | skp x => rw [exec_skp]; exact .withKey fun k => (hadv rfl).skipIf _ rfl
  | sknp x => rw [exec_sknp]; exact .withKey fun k => (hadv rfl).skipIf _ rfl
  | ldImm x nn => exact .next ((hadv (.inl rfl)).writeV x _ (.inr rfl))
  | addImm x nn => exact .next ((hadv (.inl rfl)).writeV x _ (.inr rfl))
  | ldReg x y => exact .next ((hadv (.inl rfl)).writeV x _ (.inr rfl))
  | orReg x y => exact .next ((hadv (.inl rfl)).writeV x _ (.inr rfl))
  | andReg x y => exact .next ((hadv (.inl rfl)).writeV x _ (.inr rfl))
  | xorReg x y => exact .next ((hadv (.inl rfl)).writeV x _ (.inr rfl))
  | ldVxDT x => exact .next ((hadv (.inl rfl)).writeV x _ (.inr rfl))
  | ldVxK x => exact execLdVxK_keepsColumn x s
  | addReg x y => exact .next ((hadv (.inl rfl)).writeFlagged x _ _ (.inr (.inl rfl)) (.inr (.inr rfl)))
  | subReg x y => exact .next ((hadv (.inl rfl)).writeFlagged x _ _ (.inr (.inl rfl)) (.inr (.inr rfl)))
  | shr x y => exact .next ((hadv (.inl rfl)).writeFlagged x _ _ (.inr (.inl rfl)) (.inr (.inr rfl)))
  | subn x y => exact .next ((hadv (.inl rfl)).writeFlagged x _ _ (.inr (.inl rfl)) (.inr (.inr rfl)))
  | shl x y => exact .next ((hadv (.inl rfl)).writeFlagged x _ _ (.inr (.inl rfl)) (.inr (.inr rfl)))
  | rnd x nn => exact .next (((hadv (.inl rfl)).drawRnd (.inr (.inr rfl))).writeV x _ (.inr (.inl rfl)))
  | drw x y n =>
    rw [exec_drw]
    exact .withData (((hadv (.inl rfl)).setDisp _ fun c => .inr (.inr ⟨c, rfl⟩)).writeV VF _ (.inr (.inl rfl)))
  | ldI nnn => exact .next ((hadv (.inl rfl)).setI _ (.inr rfl))
  | addI x => exact .next ((hadv (.inl rfl)).setI _ (.inr rfl))
  | ldF x => exact .next ((hadv (.inl rfl)).setI _ (.inr rfl))
  | ldB x =>
    rw [exec_ldB]
    exact .withData ((hadv (.inl rfl)).storeBytes _ _ fun k hk => .inr ⟨k, hk, rfl⟩)
  | ldMemVx x =>
    rw [exec_ldMemVx]
    refine .withData ((hadv (.inl rfl)).storeBytes _ _ fun k hk => .inr ⟨k, ?_, rfl⟩)
    rw [State.regsThrough_length] at hk
    omega
  | ldVxMem x =>
    rw [exec_ldVxMem]
    refine .withData ((hadv (.inl rfl)).setV fun y hy => ?_)
    have hle : ¬ y ≤ x := fun h => hy (.inr ⟨y, h, rfl⟩)
    rw [State.loadedRegs_getElem, if_neg hle, State.advance_readV]
  | ldDTVx x => exact .next ((hadv (.inl rfl)).setDT _ (.inr rfl))
  | ldSTVx x => exact .next ((hadv (.inl rfl)).setST _ (.inr rfl))

/-- Settles O37, by `exec_keepsColumn`. -/
theorem instructionsChangeOnlyTheirColumn : Obligations.InstructionsChangeOnlyTheirColumn := by
  unfold Obligations.InstructionsChangeOnlyTheirColumn
  exact fun i s => exec_keepsColumn i s

end Sys2Proof.Machine

/-! # Stale stack entries (10_state.md rule R35)

Only RET and CALL touch the stack; every other instruction does the same whatever the stack holds, so it commutes with
putting another stack in its place. -/

namespace Sys2Proof.Machine

/-- The state with another stack in its place. -/
def State.withStack (s : State) (st : Vector Word 16) : State := { s with stack := st }

/-- Change the next state of a result; a stop stays as it is. -/
def onNext (f : State → State) : Result → Result
  | .next s => .next (f s)
  | .fault r => .fault r
  | .refused r => .refused r

theorem sameButStaleStack_withStack {s : State} {st : Vector Word 16}
    (h : ∀ k : Fin 16, k.val < s.SP.toNat → st[k] = s.stack[k]) : SameButStaleStack s (s.withStack st) := ⟨rfl, h⟩

theorem SameButStaleStack.eq_withStack {s t : State} (h : SameButStaleStack s t) : t = s.withStack t.stack :=
  calc t = (t.withStack s.stack).withStack t.stack := rfl
    _ = s.withStack t.stack := by rw [show t.withStack s.stack = s from h.1]

/-! ## The operations that look at more of the state than a field -/

theorem State.withStack_skipIf (s : State) (st : Vector Word 16) (c : Bool) :
    (s.withStack st).skipIf c = (s.skipIf c).withStack st := by
  cases c <;> rfl

theorem State.withStack_writeFlagged (s : State) (st : Vector Word 16) (x : Reg) (b : Byte) (f : Bool) :
    (s.withStack st).writeFlagged x b f = (s.writeFlagged x b f).withStack st := by
  unfold State.writeFlagged
  rw [show (s.withStack st).params = s.params from rfl]
  split <;> rfl

theorem State.withStack_storeBytes (s : State) (st : Vector Word 16) (a : Nat) (bs : List Byte) :
    (s.withStack st).storeBytes a bs = (s.storeBytes a bs).withStack st := by
  induction bs generalizing s a with
  | nil => rfl
  | cons b bs ih => exact ih (s.writeByte a b) (a + 1)

theorem State.withStack_readBytes (s : State) (st : Vector Word 16) (a n : Nat) :
    (s.withStack st).readBytes a n = s.readBytes a n :=
  State.readBytes_congr a n fun _ _ => rfl

theorem withData_withStack {s : State} {st : Vector Word 16} {i : Instr} {len : Nat} {body body' : State → State}
    (h : body' (s.withStack st).advance = (body s.advance).withStack st) :
    withData (s.withStack st) i len body' = onNext (·.withStack st) (withData s i len body) := by
  by_cases hr : len = 0 ∨ s.I.toNat + len ≤ 4096
  · rw [withData_ok hr, withData_ok (s := s.withStack st) hr, h]
    rfl
  · obtain ⟨hlen, hout⟩ : len ≠ 0 ∧ 4096 < s.I.toNat + len := by omega
    rw [withData_fault hlen hout, withData_fault (s := s.withStack st) hlen hout]
    rfl

theorem withKey_withStack {s : State} {st : Vector Word 16} {i : Instr} {x : Reg}
    {body body' : Fin 16 → State → State}
    (h : ∀ k, body' k (s.withStack st).advance = (body k s.advance).withStack st) :
    withKey (s.withStack st) i x body' = onNext (·.withStack st) (withKey s i x body) := by
  by_cases hk : (s.readV x).toNat < 16
  · rw [withKey_ok ⟨_, hk⟩ rfl, withKey_ok (s := s.withStack st) ⟨_, hk⟩ rfl, h]
    rfl
  · have hout : 16 ≤ (s.readV x).toNat := by omega
    rw [withKey_fault hout, withKey_fault (s := s.withStack st) hout]
    rfl

theorem execLdVxK_withStack (s : State) (st : Vector Word 16) (x : Reg) :
    execLdVxK x (s.withStack st) = onNext (·.withStack st) (execLdVxK x s) := by
  unfold execLdVxK
  rw [show (s.withStack st).leastKey = s.leastKey from rfl]
  split <;> rfl

/-- But for RET and CALL, an instruction does the same whatever the stack holds. -/
theorem exec_withStack {i : Instr} (hret : i ≠ .ret) (hcall : ∀ nnn, i ≠ .call nnn) (s : State)
    (st : Vector Word 16) : exec i (s.withStack st) = onNext (·.withStack st) (exec i s) := by
  have hskip := fun c => congrArg (β := Result) .next (s.advance.withStack_skipIf st c)
  have hflagged := fun x b f => congrArg (β := Result) .next (s.advance.withStack_writeFlagged st x b f)
  cases i with
  | ret => exact absurd rfl hret
  | call nnn => exact absurd rfl (hcall nnn)
  | seImm x nn => exact hskip _
  | sneImm x nn => exact hskip _
  | seReg x y => exact hskip _
  | sneReg x y => exact hskip _
  | addReg x y => exact hflagged x _ _
  | subReg x y => exact hflagged x _ _
  | shr x y => exact hflagged x _ _
  | subn x y => exact hflagged x _ _
  | shl x y => exact hflagged x _ _
  | skp x => rw [exec_skp, exec_skp]; exact withKey_withStack fun k => s.advance.withStack_skipIf st _
  | sknp x => rw [exec_sknp, exec_sknp]; exact withKey_withStack fun k => s.advance.withStack_skipIf st _
  | ldVxK x => exact execLdVxK_withStack s st x
  | drw x y n =>
    rw [exec_drw, exec_drw, State.withStack_readBytes]
    exact withData_withStack rfl
  | ldB x => rw [exec_ldB, exec_ldB]; exact withData_withStack (s.advance.withStack_storeBytes st _ _)
  | ldMemVx x => rw [exec_ldMemVx, exec_ldMemVx]; exact withData_withStack (s.advance.withStack_storeBytes st _ _)
  | ldVxMem x => rw [exec_ldVxMem, exec_ldVxMem]; exact withData_withStack rfl
  | _ => rfl

/-- But for RET and CALL, no instruction changes SP or a stack entry: neither is in its column of R37. -/
theorem exec_keepsStack {i : Instr} (hret : i ≠ .ret) (hcall : ∀ nnn, i ≠ .call nnn) {s t : State}
    (h : exec i s = .next t) : t.SP = s.SP ∧ ∀ k : Fin 16, t.stack[k] = s.stack[k] := by
  have hcolumn : ¬ mayChange s i .sp ∧ ∀ k, ¬ mayChange s i (.stackSlot k) := by
    cases i <;> simp_all [mayChange]
  rcases exec_keepsColumn i s t h with hc | hc
  · exact ⟨hc .sp hcolumn.1, fun k => hc (.stackSlot k) (hcolumn.2 k)⟩
  · exact ⟨hc .sp (by simp), fun k => hc (.stackSlot k) (by simp)⟩

/-! ## One step of two states that differ in stale entries -/

section

variable {s s' : State} {st : Vector Word 16} (hst : ∀ k : Fin 16, k.val < s.SP.toNat → st[k] = s.stack[k])

include hst

/-- RET pops the entry below SP, which both states have. -/
theorem exec_ret_sameButStaleStack (h : exec .ret s = .next s') :
    ∃ t', exec .ret (s.withStack st) = .next t' ∧ SameButStaleStack s' t' := by
  rw [exec_ret] at h ⊢
  rcases withPop_cases h with ⟨k, hk, rfl⟩ | ⟨h0, rfl⟩
  · refine ⟨_, withPop_ok (s := s.withStack st) k hk, ?_⟩
    rw [show (s.withStack st).stack[k] = s.stack[k] from hst k (by omega)]
    refine sameButStaleStack_withStack fun j hj => hst j ?_
    have : (s.SP - 1).toNat = s.SP.toNat - 1 := by bv_omega
    change j.val < (s.SP - 1).toNat at hj
    omega
  · exact ⟨_, withPop_fault (s := s.withStack st) h0, sameButStaleStack_withStack hst⟩

/-- CALL pushes the same word in both states, so the entry that becomes observable is no stale one. -/
theorem exec_call_sameButStaleStack {nnn : BitVec 12} (h : exec (.call nnn) s = .next s') :
    ∃ t', exec (.call nnn) (s.withStack st) = .next t' ∧ SameButStaleStack s' t' := by
  rw [exec_call] at h ⊢
  rcases withPush_cases h with ⟨k, hk, rfl⟩ | ⟨hfull, rfl⟩
  · have hlt : s.SP.toNat < 16 := hk ▸ k.isLt
    obtain rfl : k = ⟨_, hlt⟩ := Fin.ext hk
    refine ⟨_, withPush_ok (s := s.withStack st) hlt, ?_⟩
    refine sameButStaleStack_withStack (st := st.set s.SP.toNat (s.pc + 2)) fun j hj => ?_
    change j.val < (s.SP + 1).toNat at hj
    show (st.set s.SP.toNat (s.pc + 2))[j.val] = (s.stack.set s.SP.toNat (s.pc + 2))[j.val]
    rw [Vector.getElem_set, Vector.getElem_set]
    split
    · rfl
    · exact hst j (by bv_omega)
  · exact ⟨_, withPush_fault (s := s.withStack st) hfull, sameButStaleStack_withStack hst⟩

theorem exec_sameButStaleStack {i : Instr} (h : exec i s = .next s') :
    ∃ t', exec i (s.withStack st) = .next t' ∧ SameButStaleStack s' t' := by
  by_cases hret : i = .ret
  · subst hret
    exact exec_ret_sameButStaleStack hst h
  by_cases hcall : ∃ nnn, i = .call nnn
  · obtain ⟨nnn, rfl⟩ := hcall
    exact exec_call_sameButStaleStack hst h
  have hcall := not_exists.1 hcall
  obtain ⟨hSP, hstack⟩ := exec_keepsStack hret hcall h
  refine ⟨s'.withStack st, by rw [exec_withStack hret hcall, h]; rfl, sameButStaleStack_withStack fun k hk => ?_⟩
  rw [hstack k]
  exact hst k (hSP ▸ hk)

theorem stepRunning_sameButStaleStack (h : stepRunning s = .next s') :
    ∃ t', stepRunning (s.withStack st) = .next t' ∧ SameButStaleStack s' t' := by
  cases hf : s.fetch with
  | error a =>
    rw [stepRunning_of_fetch_error hf] at h
    cases h
    exact ⟨_, stepRunning_of_fetch_error (s := s.withStack st) hf, sameButStaleStack_withStack hst⟩
  | ok op =>
    cases hd : decodeWord op with
    | error e =>
      rw [stepRunning_of_decode_error hf hd] at h
      cases h
      exact ⟨_, stepRunning_of_decode_error (s := s.withStack st) hf hd, sameButStaleStack_withStack hst⟩
    | ok i =>
      rw [stepRunning_of_decode_ok hf hd] at h
      rw [stepRunning_of_decode_ok (s := s.withStack st) hf hd]
      exact exec_sameButStaleStack hst h

theorem step_sameButStaleStack (h : step s = .next s') :
    ∃ t', step (s.withStack st) = .next t' ∧ SameButStaleStack s' t' := by
  cases hs : s.status with
  | running =>
    rw [step_of_running hs] at h
    rw [step_of_running (s := s.withStack st) hs]
    exact stepRunning_sameButStaleStack hst h
  | halted r =>
    rw [step_of_halted hs] at h
    cases h
    exact ⟨_, step_of_halted (s := s.withStack st) hs, sameButStaleStack_withStack hst⟩

end

/-- Settles O39: the second state is the first with another stack, which `step_sameButStaleStack` speaks of. -/
theorem staleStackEntriesAreUnobservable : Obligations.StaleStackEntriesAreUnobservable := by
  unfold Obligations.StaleStackEntriesAreUnobservable
  intro s t s' _ hst hstep
  rw [hst.eq_withStack]
  exact step_sameButStaleStack hst.2 hstep

end Sys2Proof.Machine

/-! # What instructions read (10_state.md rule R37)

Two states that agree outside a set of parts still do after one operation done alike on both: outside what it writes by
its frame, and on what it writes because both write the same. -/

namespace Sys2Proof.Machine

namespace ChangesOnly

variable {d : Part → Prop} {s t : State}

/-- Two states that agree outside `d` still do when both go on changing parts in `written` only, to the same values. -/
theorem congr (h : ChangesOnly d s t) {written : Part → Prop} {s' t' : State} (hs : ChangesOnly written s s')
    (ht : ChangesOnly written t t') (hw : ∀ p, written p → p.same s' t') : ChangesOnly d s' t' := by
  intro p hp
  by_cases hpw : written p
  · exact hw p hpw
  · exact Part.same_trans (Part.same_symm (hs p hpw)) (Part.same_trans (h p hp) (ht p hpw))

theorem setPc_congr (h : ChangesOnly d s t) {w w' : Word} (hw : w' = w) : ChangesOnly d (s.setPc w) (t.setPc w') :=
  h.congr (written := (· = .pc)) ((refl _ s).setPc w rfl) ((refl _ t).setPc w' rfl) (by rintro p rfl; exact hw)

theorem setI_congr (h : ChangesOnly d s t) {w w' : Word} (hw : w' = w) : ChangesOnly d (s.setI w) (t.setI w') :=
  h.congr (written := (· = .index)) ((refl _ s).setI w rfl) ((refl _ t).setI w' rfl) (by rintro p rfl; exact hw)

theorem setDT_congr (h : ChangesOnly d s t) {b b' : Byte} (hb : b' = b) : ChangesOnly d (s.setDT b) (t.setDT b') :=
  h.congr (written := (· = .delay)) ((refl _ s).setDT b rfl) ((refl _ t).setDT b' rfl) (by rintro p rfl; exact hb)

theorem setST_congr (h : ChangesOnly d s t) {b b' : Byte} (hb : b' = b) : ChangesOnly d (s.setST b) (t.setST b') :=
  h.congr (written := (· = .sound)) ((refl _ s).setST b rfl) ((refl _ t).setST b' rfl) (by rintro p rfl; exact hb)

theorem setSP_congr (h : ChangesOnly d s t) {b b' : Byte} (hb : b' = b) : ChangesOnly d (s.setSP b) (t.setSP b') :=
  h.congr (written := (· = .sp)) ((refl _ s).setSP b rfl) ((refl _ t).setSP b' rfl) (by rintro p rfl; exact hb)

theorem setStatus_congr (h : ChangesOnly d s t) {st st' : Status} (hst : st' = st) :
    ChangesOnly d (s.setStatus st) (t.setStatus st') :=
  h.congr (written := (· = .status)) ((refl _ s).setStatus st rfl) ((refl _ t).setStatus st' rfl)
    (by rintro p rfl; exact hst)

theorem drawRnd_congr (h : ChangesOnly d s t) (hdraws : t.draws = s.draws) :
    ChangesOnly d s.drawRnd.2 t.drawRnd.2 :=
  h.congr (written := (· = .draws)) ((refl _ s).drawRnd rfl) ((refl _ t).drawRnd rfl)
    (by rintro p rfl; exact congrArg (· + 1) hdraws)

theorem setDisp_congr (h : ChangesOnly d s t) {e e' : Display} (he : e' = e) :
    ChangesOnly d (s.setDisp e) (t.setDisp e') :=
  h.congr (written := fun p => ∃ c, p = .cell c) ((refl _ s).setDisp e fun c => ⟨c, rfl⟩)
    ((refl _ t).setDisp e' fun c => ⟨c, rfl⟩) (by rintro p ⟨c, rfl⟩; exact congrArg (Display.cell · c) he)

theorem writeV_congr (h : ChangesOnly d s t) (x : Reg) {b b' : Byte} (hb : b' = b) :
    ChangesOnly d (s.writeV x b) (t.writeV x b') :=
  h.congr (written := (· = .reg x)) ((refl _ s).writeV x b rfl) ((refl _ t).writeV x b' rfl)
    (by rintro p rfl; simp [Part.same, hb])

theorem setStack_congr (h : ChangesOnly d s t) (k : Fin 16) {w w' : Word} (hw : w' = w) :
    ChangesOnly d (s.setStack k w) (t.setStack k w') :=
  h.congr (written := (· = .stackSlot k)) ((refl _ s).setStack k w rfl) ((refl _ t).setStack k w' rfl)
    (by rintro p rfl; simp [Part.same, hw])

/-- The stored bytes read alike where the two memories are one list, or both in canonical form (log 8). -/
theorem storeBytes_congr (h : ChangesOnly d s t) (hparams : t.params = s.params)
    (hmem : t.mem = s.mem ∨ (Memory.wf s.params s.mem ∧ Memory.wf t.params t.mem)) (a : Nat) (bs : List Byte) :
    ChangesOnly d (s.storeBytes a bs) (t.storeBytes a bs) := by
  refine h.congr (written := fun p => ∃ k, k < bs.length ∧ p = .byte (a + k))
    ((refl _ s).storeBytes a bs fun k hk => ⟨k, hk, rfl⟩) ((refl _ t).storeBytes a bs fun k hk => ⟨k, hk, rfl⟩) ?_
  rintro p ⟨k, hk, rfl⟩
  show (t.storeBytes a bs).readByte (a + k) = (s.storeBytes a bs).readByte (a + k)
  rcases hmem with hmem | ⟨hs, ht⟩
  · exact State.storeBytes_readByte_congr hmem hparams a bs (a + k)
  · rw [State.storeBytes_readByte_inside hs.1 a bs hk, State.storeBytes_readByte_inside ht.1 a bs hk]

theorem advance_congr (h : ChangesOnly d s t) (hpc : t.pc = s.pc) : ChangesOnly d s.advance t.advance :=
  h.setPc_congr (congrArg (· + 2) hpc)

theorem skipIf_congr (h : ChangesOnly d s t) (hpc : t.pc = s.pc) {c c' : Bool} (hc : c' = c) :
    ChangesOnly d (s.skipIf c) (t.skipIf c') := by
  subst hc
  cases c'
  · exact h
  · exact h.advance_congr hpc

theorem writeFlagged_congr (h : ChangesOnly d s t) (hparams : t.params = s.params) (x : Reg) {r r' : Byte × Bool}
    (hr : r' = r) : ChangesOnly d (s.writeFlagged x r.1 r.2) (t.writeFlagged x r'.1 r'.2) := by
  subst hr
  unfold State.writeFlagged
  rw [hparams]
  split
  · exact (h.writeV_congr x rfl).writeV_congr VF rfl
  · exact (h.writeV_congr VF rfl).writeV_congr x rfl

theorem enterFault_congr (h : ChangesOnly d s t) (hpc : t.pc = s.pc) (kind : FaultKind) (op : Option Opcode)
    {addr addr' : Option Nat} (haddr : addr' = addr) :
    ChangesOnly d (s.enterFault kind op addr) (t.enterFault kind op addr') :=
  h.setStatus_congr (by rw [hpc, haddr])

end ChangesOnly

/-! ## The operations that may take a fault, on two states -/

section AgreeOutside

variable {d : Part → Prop} {s t : State} (h : ChangesOnly d s t) (hpc : t.pc = s.pc) {i : Instr}

include h hpc

theorem withData_agreeOutside (hI : t.I = s.I) {len : Nat} {body body' : State → State}
    (hbody : ChangesOnly d (body s.advance) (body' t.advance)) :
    AgreeOutside d (withData s i len body) (withData t i len body') := by
  by_cases hr : len = 0 ∨ s.I.toNat + len ≤ 4096
  · rw [withData_ok hr, withData_ok (by rwa [hI])]
    exact hbody
  · obtain ⟨hlen, hout⟩ : len ≠ 0 ∧ 4096 < s.I.toNat + len := by omega
    rw [withData_fault hlen hout, withData_fault hlen (by rwa [hI])]
    exact h.enterFault_congr hpc _ _ (by rw [hI])

theorem withKey_agreeOutside {x : Reg} (hx : t.readV x = s.readV x) {body body' : Fin 16 → State → State}
    (hbody : ∀ k : Fin 16, k.val = (s.readV x).toNat → ChangesOnly d (body k s.advance) (body' k t.advance)) :
    AgreeOutside d (withKey s i x body) (withKey t i x body') := by
  by_cases hk : (s.readV x).toNat < 16
  · rw [withKey_ok ⟨_, hk⟩ rfl, withKey_ok ⟨_, hk⟩ (by rw [hx])]
    exact hbody _ rfl
  · have hout : 16 ≤ (s.readV x).toNat := by omega
    rw [withKey_fault hout, withKey_fault (by rwa [hx])]
    exact h.enterFault_congr hpc _ _ (by rw [hx])

theorem withPush_agreeOutside (hSP : t.SP = s.SP) {w w' : Word} {body body' : State → State}
    (hbody : ∀ k : Fin 16, ChangesOnly d (body ((s.advance.setStack k w).setSP (s.SP + 1)))
      (body' ((t.advance.setStack k w').setSP (t.SP + 1)))) :
    AgreeOutside d (withPush s i w body) (withPush t i w' body') := by
  rcases Nat.lt_trichotomy s.SP.toNat 16 with hlt | hfull | hgt
  · have hlt' : t.SP.toNat < 16 := by rwa [hSP]
    rw [withPush_ok hlt, withPush_ok hlt', show (⟨_, hlt'⟩ : Fin 16) = ⟨_, hlt⟩ from Fin.ext (congrArg BitVec.toNat hSP)]
    exact hbody _
  · rw [withPush_fault hfull, withPush_fault (by rwa [hSP])]
    exact h.enterFault_congr hpc _ _ rfl
  · rw [withPush_stop hgt, withPush_stop (by rwa [hSP])]
    rfl

theorem withPop_agreeOutside (hSP : t.SP = s.SP) {body body' : Word → State → State}
    (hbody : ∀ k : Fin 16, k.val + 1 = s.SP.toNat →
      ChangesOnly d (body s.stack[k] (s.advance.setSP (s.SP - 1))) (body' t.stack[k] (t.advance.setSP (t.SP - 1)))) :
    AgreeOutside d (withPop s i body) (withPop t i body') := by
  by_cases h0 : s.SP.toNat = 0
  · rw [withPop_fault h0, withPop_fault (by rwa [hSP])]
    exact h.enterFault_congr hpc _ _ rfl
  by_cases hgt : 16 < s.SP.toNat
  · rw [withPop_stop hgt, withPop_stop (by rwa [hSP])]
    rfl
  · obtain ⟨k, hk⟩ : ∃ k : Fin 16, k.val + 1 = s.SP.toNat :=
      ⟨⟨s.SP.toNat - 1, by omega⟩, by show s.SP.toNat - 1 + 1 = _; omega⟩
    rw [withPop_ok k hk, withPop_ok k (by rwa [hSP])]
    exact hbody k hk

end AgreeOutside

/-! ## Each instruction on two states that agree on what it reads -/

theorem State.leastKey_congr {s t : State} (h : ∀ k : Fin 16, t.key[k] = s.key[k]) : t.leastKey = s.leastKey := by
  have hkey : t.key = s.key := Vector.ext fun k hk => h ⟨k, hk⟩
  unfold State.leastKey
  rw [hkey]

theorem State.regsThrough_congr {s t : State} {x : Reg} (h : ∀ k : Reg, k ≤ x → t.readV k = s.readV k) :
    t.regsThrough x = s.regsThrough x := by
  refine List.ext_getElem (by simp only [State.regsThrough_length]) fun k h1 h2 => ?_
  rw [State.regsThrough_getElem, State.regsThrough_getElem]
  rw [State.regsThrough_length] at h1
  exact h _ (Nat.le_of_lt_succ h1)

section

variable {d : Part → Prop} {s t : State} (h : ChangesOnly d s t) (hpc : t.pc = s.pc)

include h hpc

theorem execLdVxK_agreeOutside {x : Reg} (hkey : ∀ k : Fin 16, t.key[k] = s.key[k]) :
    AgreeOutside d (execLdVxK x s) (execLdVxK x t) := by
  have hadv := h.advance_congr hpc
  unfold execLdVxK
  rw [State.leastKey_congr hkey]
  split
  · exact hadv.writeV_congr x rfl
  · exact hadv.setPc_congr (by rw [State.advance_pc, State.advance_pc, hpc])

theorem exec_drw_agreeOutside {x y : Reg} {n : Nat} (hx : t.readV x = s.readV x) (hy : t.readV y = s.readV y)
    (hI : t.I = s.I) (hcells : ∀ c, t.disp.cell c = s.disp.cell c)
    (hbytes : ∀ k, k < n → t.readByte (s.ea k) = s.readByte (s.ea k)) :
    AgreeOutside d (exec (.drw x y n) s) (exec (.drw x y n) t) := by
  have hrows : t.readBytes (t.ea 0) n = s.readBytes (s.ea 0) n := by
    rw [show t.ea 0 = s.ea 0 from congrArg (·.toNat + 0) hI]
    exact State.readBytes_congr _ n hbytes
  rw [exec_drw, exec_drw, hx, hy, hrows, Display.ext_cells hcells]
  exact withData_agreeOutside h hpc hI (((h.advance_congr hpc).setDisp_congr rfl).writeV_congr VF rfl)

theorem exec_ldVxMem_agreeOutside {x : Reg} (hI : t.I = s.I)
    (hbytes : ∀ k, k ≤ x.val → t.readByte (s.ea k) = s.readByte (s.ea k)) :
    AgreeOutside d (exec (.ldVxMem x) s) (exec (.ldVxMem x) t) := by
  have hframe (u : State) : ChangesOnly (fun p => ∃ k, k ≤ x ∧ p = .reg k) u.advance
      (u.advance.setV (u.loadedRegs x)) := by
    refine (ChangesOnly.refl _ _).setV fun k hk => ?_
    have hle : ¬ k ≤ x := fun hle => hk ⟨k, hle, rfl⟩
    rw [State.loadedRegs_getElem, if_neg hle, State.advance_readV]
  rw [exec_ldVxMem, exec_ldVxMem]
  refine withData_agreeOutside h hpc hI ((h.advance_congr hpc).congr (hframe s) (hframe t) ?_)
  rintro p ⟨k, hk, rfl⟩
  show (t.loadedRegs x)[k] = (s.loadedRegs x)[k]
  rw [State.loadedRegs_getElem, State.loadedRegs_getElem, if_pos hk, if_pos hk, hI]
  exact hbytes k.val hk

theorem exec_agreeOutside (i : Instr) (hparams : t.params = s.params)
    (hmem : t.mem = s.mem ∨ (Memory.wf s.params s.mem ∧ Memory.wf t.params t.mem))
    (hread : ∀ p, mayRead s i p → p.same s t) : AgreeOutside d (exec i s) (exec i t) := by
  have hadv := h.advance_congr hpc
  have hpcadv : t.advance.pc = s.advance.pc := congrArg (· + 2) hpc
  have hflag (x : Reg) {r r' : Byte × Bool} (hr : r' = r) := hadv.writeFlagged_congr hparams x hr
  cases i with
  | nop => exact hadv
  | cls => exact hadv.setDisp_congr rfl
  | ret =>
    have hSP := hread .sp (.inl rfl)
    rw [exec_ret, exec_ret]
    exact withPop_agreeOutside h hpc hSP fun k hk =>
      (hadv.setSP_congr (congrArg (· - 1) hSP)).setPc_congr (hread (.stackSlot k) (.inr ⟨k, hk, rfl⟩))
  | call nnn =>
    have hSP := hread .sp rfl
    rw [exec_call, exec_call]
    exact withPush_agreeOutside h hpc hSP fun k =>
      ((hadv.setStack_congr k hpcadv).setSP_congr (congrArg (· + 1) hSP)).setPc_congr rfl
  | jp nnn => exact hadv.setPc_congr rfl
  | jpV0 nnn => exact hadv.setPc_congr (congrArg (zextByte · + zextAddr nnn) (hread (.reg V0) rfl))
  | seImm x nn => exact hadv.skipIf_congr hpcadv (congrArg (· == nn) (hread (.reg x) rfl))
  | sneImm x nn => exact hadv.skipIf_congr hpcadv (congrArg (· != nn) (hread (.reg x) rfl))
  | seReg x y =>
    exact hadv.skipIf_congr hpcadv (congrArg₂ (· == ·) (hread (.reg x) (.inl rfl)) (hread (.reg y) (.inr rfl)))
  | sneReg x y =>
    exact hadv.skipIf_congr hpcadv (congrArg₂ (· != ·) (hread (.reg x) (.inl rfl)) (hread (.reg y) (.inr rfl)))
  | ldImm x nn => exact hadv.writeV_congr x rfl
  | addImm x nn => exact hadv.writeV_congr x (congrArg (· + nn) (hread (.reg x) rfl))
  | ldReg x y => exact hadv.writeV_congr x (hread (.reg y) rfl)
  | orReg x y =>
    exact hadv.writeV_congr x (congrArg₂ (· ||| ·) (hread (.reg x) (.inl rfl)) (hread (.reg y) (.inr rfl)))
  | andReg x y =>
    refine hadv.writeV_congr x ?_
    rw [hparams]
    exact congrArg₂ _ (hread (.reg x) (.inl rfl)) (hread (.reg y) (.inr rfl))
  | xorReg x y =>
    refine hadv.writeV_congr x ?_
    rw [hparams]
    exact congrArg₂ _ (hread (.reg x) (.inl rfl)) (hread (.reg y) (.inr rfl))
  | addReg x y => exact hflag x (congrArg₂ addCarry (hread (.reg x) (.inl rfl)) (hread (.reg y) (.inr rfl)))
  | subReg x y =>
    refine hflag x ?_
    rw [hparams]
    exact congrArg₂ _ (hread (.reg x) (.inl rfl)) (hread (.reg y) (.inr rfl))
  | shr x y => exact hflag x (congrArg shiftRight (hread (.reg x) rfl))
  | subn x y => exact hflag x (congrArg₂ subNoBorrow (hread (.reg y) (.inr rfl)) (hread (.reg x) (.inl rfl)))
  | shl x y => exact hflag x (congrArg shiftLeft (hread (.reg x) rfl))
  | ldI nnn => exact hadv.setI_congr rfl
  | rnd x nn =>
    have hdraws : t.draws = s.draws := hread .draws rfl
    exact (hadv.drawRnd_congr hdraws).writeV_congr x (congrArg (Config.rndDraw · &&& nn) hdraws)
  | drw x y n =>
    exact exec_drw_agreeOutside h hpc (hread (.reg x) (.inl rfl)) (hread (.reg y) (.inr (.inl rfl)))
      (hread .index (.inr (.inr (.inl rfl)))) (fun c => hread (.cell c) (.inr (.inr (.inr (.inl ⟨c, rfl⟩)))))
      fun k hk => hread (.byte _) (.inr (.inr (.inr (.inr ⟨k, hk, rfl⟩))))
  | skp x =>
    rw [exec_skp, exec_skp]
    exact withKey_agreeOutside h hpc (hread (.reg x) (.inl rfl)) fun k hk =>
      hadv.skipIf_congr hpcadv (hread (.key k) (.inr ⟨k, hk, rfl⟩))
  | sknp x =>
    rw [exec_sknp, exec_sknp]
    exact withKey_agreeOutside h hpc (hread (.reg x) (.inl rfl)) fun k hk =>
      hadv.skipIf_congr hpcadv (congrArg (!·) (hread (.key k) (.inr ⟨k, hk, rfl⟩)))
  | ldVxDT x => exact hadv.writeV_congr x (hread .delay rfl)
  | ldVxK x => exact execLdVxK_agreeOutside h hpc fun k => hread (.key k) ⟨k, rfl⟩
  | ldDTVx x => exact hadv.setDT_congr (hread (.reg x) rfl)
  | ldSTVx x => exact hadv.setST_congr (hread (.reg x) rfl)
  | addI x =>
    exact hadv.setI_congr (congrArg₂ (· + zextByte ·) (hread .index (.inr rfl)) (hread (.reg x) (.inl rfl)))
  | ldF x => exact hadv.setI_congr (congrArg (zextByte · * 5) (hread (.reg x) rfl))
  | ldB x =>
    have hx : t.readV x = s.readV x := hread (.reg x) (.inl rfl)
    have hI : t.I = s.I := hread .index (.inr rfl)
    rw [exec_ldB, exec_ldB, hx, show t.ea 0 = s.ea 0 from congrArg (·.toNat + 0) hI]
    exact withData_agreeOutside h hpc hI (hadv.storeBytes_congr hparams hmem _ _)
  | ldMemVx x =>
    have hI : t.I = s.I := hread .index (.inl rfl)
    have hregs := State.regsThrough_congr fun k hk => hread (.reg k) (.inr ⟨k, hk, rfl⟩)
    rw [exec_ldMemVx, exec_ldMemVx, hregs, show t.ea 0 = s.ea 0 from congrArg (·.toNat + 0) hI]
    exact withData_agreeOutside h hpc hI (hadv.storeBytes_congr hparams hmem _ _)
  | ldVxMem x =>
    exact exec_ldVxMem_agreeOutside h hpc (hread .index (.inl rfl)) fun k hk => hread (.byte _) (.inr ⟨k, hk, rfl⟩)

end

/-- Settles O38, by `exec_agreeOutside`: pc, the parameters and every part the instruction reads are among those the
two states agree on. -/
theorem instructionsReadOnlyTheirColumn : Obligations.InstructionsReadOnlyTheirColumn := by
  unfold Obligations.InstructionsReadOnlyTheirColumn
  intro i s t differ h hdiffer hmem
  have hpc : t.pc = s.pc := h .pc fun hd => (hdiffer _ hd).1 rfl
  have hparams : t.params = s.params := h .params fun hd => (hdiffer _ hd).2.1 rfl
  exact exec_agreeOutside h hpc i hparams hmem fun p hp => h p fun hd => (hdiffer p hd).2.2 hp

end Sys2Proof.Machine

/-! # Memory (20_memory.md rules R50, R53, R62)

A memory in canonical form lists exactly the bytes that differ from their reset contents, so what it reads as determines
it; and the registers Fx55 stored are what a later fetch reads. -/

namespace Sys2Proof.Machine

/-! ## Canonical memories (R50; log 8) -/

theorem Memory.lookup_of_mem {m : Memory} (hm : m.Pairwise (fun c d => c.1 < d.1)) {a : Nat} {v : Byte}
    (h : (a, v) ∈ m) : m.lookup a = some v := by
  induction m with
  | nil => cases h
  | cons cell m ih =>
    obtain ⟨hhead, htail⟩ := List.pairwise_cons.1 hm
    rcases List.mem_cons.1 h with rfl | h
    · exact if_pos rfl
    · exact (if_neg (hhead _ h).ne).trans (ih htail h)

/-- A canonical memory lists a byte exactly where it reads as that byte and not as its reset contents. -/
theorem Memory.mem_iff_read {p : Config.Params} {m : Memory} (hm : Memory.wf p m) {a : Nat} {v : Byte} :
    (a, v) ∈ m ↔ m.read p a = v ∧ v ≠ p.resetByte a := by
  obtain ⟨hrising, hlisted⟩ := hm
  unfold Memory.read
  constructor
  · intro h
    exact ⟨by rw [Memory.lookup_of_mem hrising h]; rfl, (hlisted _ h).2⟩
  · rintro ⟨hread, hne⟩
    cases hl : m.lookup a with
    | none => rw [hl] at hread; exact absurd hread.symm hne
    | some w => rw [hl] at hread; exact hread ▸ Memory.mem_of_lookup hl

/-- Lists of cells whose addresses rise and that hold the same cells are one list. -/
theorem Memory.eq_of_rising_of_mem_iff {m m' : Memory} (hm : m.Pairwise (fun c d => c.1 < d.1))
    (hm' : m'.Pairwise (fun c d => c.1 < d.1)) (h : ∀ c, c ∈ m ↔ c ∈ m') : m = m' := by
  have : Std.Irrefl (fun c d : Host.Cell => c.1 < d.1) := ⟨fun c => lt_irrefl c.1⟩
  have : Std.Antisymm (fun c d : Host.Cell => c.1 < d.1) := ⟨fun _ _ hlt hgt => absurd hgt hlt.asymm⟩
  exact hm.eq_of_mem_iff hm' h

/-- Settles O46: reading determines which cells a canonical memory lists (`Memory.mem_iff_read`), and their addresses
rise. -/
theorem canonicalMemoriesThatReadAlikeAreEqual : Obligations.CanonicalMemoriesThatReadAlikeAreEqual := by
  unfold Obligations.CanonicalMemoriesThatReadAlikeAreEqual
  intro p m m' hm hm' hread
  refine Memory.eq_of_rising_of_mem_iff hm.1 hm'.1 fun ⟨a, v⟩ => ?_
  rw [Memory.mem_iff_read hm, Memory.mem_iff_read hm', hread]

/-! ## Stored registers as fetched words (R53, R62) -/

/-- Instruction words are big-endian (R53). -/
theorem wordOfBytes_toNat (hi lo : Byte) : (wordOfBytes hi lo).toNat = hi.toNat * 256 + lo.toNat := by
  unfold wordOfBytes
  rw [BitVec.toNat_append, ← Nat.shiftLeft_add_eq_or_of_lt lo.isLt, Nat.shiftLeft_eq]

theorem exec_ldMemVx_of_inRange {s : State} {x : Reg} (h : s.I.toNat + x.val < 4096) :
    exec (.ldMemVx x) s = .next (s.advance.storeBytes (s.ea 0) (s.regsThrough x)) := by
  rw [exec_ldMemVx, withData_ok (.inr (by omega))]

/-- Fx55 leaves register k at I + k (R154). -/
theorem State.storeRegs_readByte {s : State} (hm : Memory.wf s.params s.mem) {x k : Reg} (hk : k ≤ x) :
    (s.advance.storeBytes (s.ea 0) (s.regsThrough x)).readByte (s.I.toNat + k.val) = s.readV k := by
  have hlen : k.val < (s.regsThrough x).length := by rw [State.regsThrough_length]; exact Nat.lt_succ_of_le hk
  exact (State.storeBytes_readByte_inside (s := s.advance) hm.1 (s.ea 0) _ hlen).trans (s.regsThrough_getElem x hlen)

/-- Settles O21: the two bytes at pc = I are V0 and V1 (`State.storeRegs_readByte`), and a fetch puts them together
high byte first. -/
theorem storedBytesAreFetched : Obligations.StoredBytesAreFetched := by
  unfold Obligations.StoredBytesAreFetched
  intro s x hm hx hrange
  refine ⟨_, exec_ldMemVx_of_inRange hrange, fun t' hpc hread => ?_⟩
  have hhi : t'.readByte t'.pc.toNat = s.readV 0 := by
    rw [hpc, hread]
    exact State.storeRegs_readByte hm (Fin.zero_le x)
  have hlo : t'.readByte (t'.pc.toNat + 1) = s.readV 1 := by
    rw [hpc, hread]
    exact State.storeRegs_readByte (k := 1) hm hx
  have hfetch : t'.fetch = .ok (wordOfBytes (s.readV 0) (s.readV 1)) :=
    (t'.fetch_ok_iff _).2 ⟨by rw [hpc]; omega, by rw [hhi, hlo]⟩
  exact ⟨_, hfetch, wordOfBytes_toNat _ _⟩

end Sys2Proof.Machine

/-! # The encoding (30_encoding.md rules R71 to R77)

The fields of a word determine it, so each decoder's answer encodes to the word it was read from; conversely each
instruction's fields are read back from its word. The words that are no instruction are six spaces, and the rows of the
dispatch table exclude each other. -/

namespace Sys2Proof

section

variable {op : Opcode} {i : Instr}

/-! ## The fields of a word as numbers (R71) -/

theorem fieldN1_toNat (op : Opcode) : (fieldN1 op).toNat = op.toNat / 4096 := by
  simp only [fieldN1, BitVec.extractLsb'_toNat, Nat.shiftRight_eq_div_pow]
  omega

theorem fieldNNN_toNat (op : Opcode) : (fieldNNN op).toNat = op.toNat % 4096 := BitVec.extractLsb'_toNat ..

theorem fieldNN_toNat (op : Opcode) : (fieldNN op).toNat = op.toNat % 256 := BitVec.extractLsb'_toNat ..

theorem fieldN_toNat (op : Opcode) : (fieldN op).toNat = op.toNat % 16 := BitVec.extractLsb'_toNat ..

/-! ## A word is put together from its fields (R71, R73) -/

theorem encNNN_of_fields {n1 : BitVec 4} {nnn : BitVec 12} (h1 : (fieldN1 op).toNat = n1.toNat)
    (hnnn : (fieldNNN op).toNat = nnn.toNat) : encNNN n1 nnn = op := by
  rw [← BitVec.eq_of_toNat_eq h1, ← BitVec.eq_of_toNat_eq hnnn]
  exact BitVec.extractLsb'_append_extractLsb' (w := 4) (len := 12) (x := op)

theorem encXNN_of_fields {n1 : BitVec 4} {nn : Byte} (h1 : (fieldN1 op).toNat = n1.toNat)
    (hnn : (fieldNN op).toNat = nn.toNat) : encXNN n1 (fieldX op) nn = op := by
  rw [← BitVec.eq_of_toNat_eq h1, ← BitVec.eq_of_toNat_eq hnn, encXNN, fieldX, nibbleOfReg_regOfNibble, fieldN1,
    BitVec.extractLsb'_append_extractLsb'_eq_extractLsb' (show 12 = 8 + 4 from rfl)]
  exact BitVec.extractLsb'_append_extractLsb' (w := 8) (len := 8) (x := op)

theorem encXYN_of_fields {n1 n : BitVec 4} (h1 : (fieldN1 op).toNat = n1.toNat)
    (hn : (fieldN op).toNat = n.toNat) : encXYN n1 (fieldX op) (fieldY op) n = op := by
  rw [← BitVec.eq_of_toNat_eq h1, ← BitVec.eq_of_toNat_eq hn, encXYN, fieldX, fieldY, nibbleOfReg_regOfNibble,
    nibbleOfReg_regOfNibble, fieldN1, BitVec.extractLsb'_append_extractLsb'_eq_extractLsb' (show 12 = 8 + 4 from rfl),
    BitVec.extractLsb'_append_extractLsb'_eq_extractLsb' (show 8 = 4 + 4 from rfl)]
  exact BitVec.extractLsb'_append_extractLsb' (w := 12) (len := 4) (x := op)

/-! ## Decoding an encoded instruction (R71 to R74) -/

/-- The simp laws of `fieldN1`, `fieldX` and the rest read each operand back; only DRW's row count has to be in range
for that. -/
theorem decodeWord_encode (h : i.wellFormed = true) : decodeWord (encode i) = .ok i := by
  cases i with
  | nop | cls | ret => rfl
  | jp | call | ldI | jpV0 => simp [encode, decodeWord]
  | seImm | sneImm | ldImm | addImm | rnd => simp [encode, decodeWord]
  | seReg | sneReg => simp [encode, decodeWord, decodeXY0]
  | ldReg | orReg | andReg | xorReg | addReg | subReg | shr | subn | shl => simp [encode, decodeWord, decode8]
  | drw x y n =>
    have hn : n < 16 := Nat.lt_succ_of_le (of_decide_eq_true h)
    simp [encode, decodeWord, hn]
  | skp | sknp => simp [encode, decodeWord, decodeE]
  | ldVxDT | ldVxK | ldDTVx | ldSTVx | addI | ldF | ldB | ldMemVx | ldVxMem => simp [encode, decodeWord, decodeF]

/-! ## Encoding a decoded instruction (R71 to R77) -/

/-- `op` is the word of the instruction `i`, and `i` is well-formed. -/
def IsWordOf (op : Opcode) (i : Instr) : Prop := i.wellFormed = true ∧ encode i = op

theorem isWordOf_of_decode0 (h1 : (fieldN1 op).toNat = 0) (h : decode0 op = .ok i) : IsWordOf op i := by
  unfold decode0 at h
  split at h <;> cases h
  case h_1 => exact ⟨rfl, encNNN_of_fields (n1 := 0) (nnn := 0x000) h1 ‹_›⟩
  case h_2 => exact ⟨rfl, encNNN_of_fields (n1 := 0) (nnn := 0x0E0) h1 ‹_›⟩
  case h_3 => exact ⟨rfl, encNNN_of_fields (n1 := 0) (nnn := 0x0EE) h1 ‹_›⟩

theorem isWordOf_of_decode8 (h1 : (fieldN1 op).toNat = 8) (h : decode8 op = .ok i) : IsWordOf op i := by
  unfold decode8 at h
  split at h <;> cases h
  all_goals exact ⟨rfl, encXYN_of_fields h1 ‹_›⟩

theorem isWordOf_of_decodeE (h1 : (fieldN1 op).toNat = 14) (h : decodeE op = .ok i) : IsWordOf op i := by
  unfold decodeE at h
  split at h <;> cases h
  all_goals exact ⟨rfl, encXNN_of_fields h1 ‹_›⟩

theorem isWordOf_of_decodeF (h1 : (fieldN1 op).toNat = 15) (h : decodeF op = .ok i) : IsWordOf op i := by
  unfold decodeF at h
  split at h <;> cases h
  all_goals exact ⟨rfl, encXNN_of_fields h1 ‹_›⟩

theorem decodeXY0_eq_ok_iff {j : Instr} : decodeXY0 op j = .ok i ↔ (fieldN op).toNat = 0 ∧ j = i := by
  unfold decodeXY0
  split <;> simp_all [← BitVec.toNat_inj]

/-- Each decoder reads the fields that the format of its instruction is put together from. -/
theorem isWordOf_of_decodeWord (h : decodeWord op = .ok i) : IsWordOf op i := by
  unfold decodeWord at h
  split at h
  case h_1 => exact isWordOf_of_decode0 ‹_› h
  case h_9 => exact isWordOf_of_decode8 ‹_› h
  case h_15 => exact isWordOf_of_decodeE ‹_› h
  case h_16 => exact isWordOf_of_decodeF ‹_› h
  case h_6 | h_10 =>
    obtain ⟨hn, rfl⟩ := decodeXY0_eq_ok_iff.1 h
    exact ⟨rfl, encXYN_of_fields ‹_› hn⟩
  all_goals cases h
  case h_2 | h_3 | h_11 | h_12 => exact ⟨rfl, encNNN_of_fields ‹_› rfl⟩
  case h_14 => exact ⟨decide_eq_true (Nat.le_of_lt_succ (fieldN op).isLt), encXYN_of_fields ‹_› (by simp)⟩
  all_goals exact ⟨rfl, encXNN_of_fields ‹_› rfl⟩

/-! ## The words that decode (R76, R77) -/

/-- The six illegal spaces of R77. -/
def IllegalSpace (w : Nat) : Prop :=
  w / 4096 = 0 ∧ w ∉ [0x0000, 0x00E0, 0x00EE] ∨ w / 4096 = 5 ∧ w % 16 ≠ 0 ∨
    w / 4096 = 8 ∧ w % 16 ∈ [0x8, 0x9, 0xA, 0xB, 0xC, 0xD, 0xF] ∨ w / 4096 = 9 ∧ w % 16 ≠ 0 ∨
    w / 4096 = 0xE ∧ w % 256 ∉ [0x9E, 0xA1] ∨
    w / 4096 = 0xF ∧ w % 256 ∉ [0x07, 0x0A, 0x15, 0x18, 0x1E, 0x29, 0x33, 0x55, 0x65]

theorem decode0_ok_iff : (∃ i, decode0 op = .ok i) ↔ op.toNat % 4096 ∈ [0x0000, 0x00E0, 0x00EE] := by
  unfold decode0
  rw [← fieldNNN_toNat]
  split <;> simp_all

theorem decode8_ok_iff : (∃ i, decode8 op = .ok i) ↔ op.toNat % 16 ∉ [0x8, 0x9, 0xA, 0xB, 0xC, 0xD, 0xF] := by
  have hlt := (fieldN op).isLt
  unfold decode8
  rw [← fieldN_toNat]
  split
  case h_10 =>
    simp_all
    omega
  all_goals simp_all

theorem decodeE_ok_iff : (∃ i, decodeE op = .ok i) ↔ op.toNat % 256 ∈ [0x9E, 0xA1] := by
  unfold decodeE
  rw [← fieldNN_toNat]
  split <;> simp_all

theorem decodeF_ok_iff :
    (∃ i, decodeF op = .ok i) ↔ op.toNat % 256 ∈ [0x07, 0x0A, 0x15, 0x18, 0x1E, 0x29, 0x33, 0x55, 0x65] := by
  unfold decodeF
  rw [← fieldNN_toNat]
  split <;> simp_all

theorem decodeXY0_ok_iff (j : Instr) : (∃ i, decodeXY0 op j = .ok i) ↔ op.toNat % 16 = 0 := by
  simp [decodeXY0_eq_ok_iff, fieldN_toNat]

/-- R77: the words that are no instruction are those of the illegal spaces. -/
theorem decodeWord_ok_iff : (∃ i, decodeWord op = .ok i) ↔ ¬ IllegalSpace op.toNat := by
  unfold decodeWord
  rw [fieldN1_toNat]
  split
  case h_17 =>
    simp only [imp_false] at *
    omega
  case h_1 h1 =>
    have hw : op.toNat % 4096 = op.toNat := by omega
    simp [decode0_ok_iff, IllegalSpace, h1, hw, -List.mem_cons]
  case h_6 h1 | h_10 h1 => simp [decodeXY0_ok_iff, IllegalSpace, h1]
  case h_9 h1 => simp [decode8_ok_iff, IllegalSpace, h1]
  case h_15 h1 => simp [decodeE_ok_iff, IllegalSpace, h1, -List.mem_cons]
  case h_16 h1 => simp [decodeF_ok_iff, IllegalSpace, h1, -List.mem_cons]
  all_goals simp [IllegalSpace, *]

/-! ## The rows of the dispatch table (R74, R75) -/

theorem Instr.row_mem_opcodeTable (i : Instr) : i.row ∈ opcodeTable := by
  cases i <;> simp [Instr.row, opcodeTable, oneOfEachRow]

open Laws.EncodesItsRow in
theorem row_matches_encode (i : Instr) : i.row.matches (encode i) = true := by
  cases i
  exacts [nop, cls, ret, jp _, call _, seImm _ _, sneImm _ _, seReg _ _, ldImm _ _, addImm _ _, ldReg _ _, orReg _ _,
    andReg _ _, xorReg _ _, addReg _ _, subReg _ _, shr _ _, subn _ _, shl _ _, sneReg _ _, ldI _, jpV0 _, rnd _ _,
    drw _ _ _, skp _, sknp _, ldVxDT _, ldVxK _, ldDTVx _, ldSTVx _, addI _, ldF _, ldB _, ldMemVx _, ldVxMem _]

theorem OpcodeRow.matches_iff {r : OpcodeRow} : r.matches op = true ↔ op &&& r.mask = r.pat := by
  simp [OpcodeRow.matches]

/-- A row that matches a word agrees with it on every field that its mask covers. -/
theorem OpcodeRow.matches_field {r : OpcodeRow} (h : r.matches op = true) {start len : Nat}
    (hm : r.mask.extractLsb' start len = BitVec.allOnes len) :
    op.extractLsb' start len = r.pat.extractLsb' start len := by
  rw [← OpcodeRow.matches_iff.1 h, BitVec.extractLsb'_and, hm, BitVec.and_allOnes]

/-- Every row fixes the major opcode (R74). -/
theorem mask_covers_nibble1 : ∀ r ∈ opcodeTable, r.mask.extractLsb' 12 4 = BitVec.allOnes 4 := by decide

theorem OpcodeRow.matches_nibble1 {r : OpcodeRow} (hr : r ∈ opcodeTable) (h : r.matches op = true) :
    op.toNat / 4096 = r.pat.toNat / 4096 := by
  rw [← fieldN1_toNat, ← fieldN1_toNat]
  exact congrArg BitVec.toNat (matches_field h (mask_covers_nibble1 r hr))

theorem OpcodeRow.matches_n {r : OpcodeRow} (hm : r.mask = 0xF00F) (h : r.matches op = true) :
    op.toNat % 16 = r.pat.toNat % 16 := by
  rw [← fieldN_toNat, ← fieldN_toNat]
  exact congrArg BitVec.toNat (matches_field h (by rw [hm]; decide))

theorem OpcodeRow.matches_nn {r : OpcodeRow} (hm : r.mask = 0xF0FF) (h : r.matches op = true) :
    op.toNat % 256 = r.pat.toNat % 256 := by
  rw [← fieldNN_toNat, ← fieldNN_toNat]
  exact congrArg BitVec.toNat (matches_field h (by rw [hm]; decide))

theorem OpcodeRow.eq_pat_of_matches {r : OpcodeRow} (hm : r.mask = 0xFFFF) (h : r.matches op = true) : op = r.pat := by
  rw [← matches_iff.1 h, hm]
  exact BitVec.and_allOnes.symm

/-- The mask of each row covers the fields by which its format is told apart. -/
theorem legal_of_row_matches (h : i.row.matches op = true) : ¬ IllegalSpace op.toNat := by
  have h1 := OpcodeRow.matches_nibble1 i.row_mem_opcodeTable h
  cases i with
  | nop | cls | ret =>
    rw [OpcodeRow.eq_pat_of_matches rfl h]
    simp [IllegalSpace, Instr.row]
  | jp | call | ldI | jpV0 | seImm | sneImm | ldImm | addImm | rnd | drw => simp [IllegalSpace, h1, Instr.row]
  | seReg | sneReg | ldReg | orReg | andReg | xorReg | addReg | subReg | shr | subn | shl =>
    simp [IllegalSpace, h1, OpcodeRow.matches_n rfl h, Instr.row]
  | skp | sknp | ldVxDT | ldVxK | ldDTVx | ldSTVx | addI | ldF | ldB | ldMemVx | ldVxMem =>
    simp [IllegalSpace, h1, OpcodeRow.matches_nn rfl h, Instr.row]

/-- Two rows that match one word agree wherever both masks look. -/
theorem OpcodeRow.agree_of_matches {r q : OpcodeRow} (hr : r.matches op = true) (hq : q.matches op = true) :
    r.mask &&& q.mask &&& (r.pat ^^^ q.pat) = 0 := by
  rw [← matches_iff.1 hr, ← matches_iff.1 hq]
  ext k hk
  cases hbit : op[k] <;> simp +contextual [hbit]

/-- Any two rows of the table differ in a bit that both masks cover (R75). -/
theorem opcodeTable_disjoint : ∀ r ∈ opcodeTable, ∀ q ∈ opcodeTable,
    r.mask &&& q.mask &&& (r.pat ^^^ q.pat) = 0 → r = q := by decide

end

/-! ## The statements about words -/

/-- Settles O29: each instruction's fields are read back from its word, and the word from its two bytes. -/
theorem decodeOfEncodeIsTheInstruction : Obligations.DecodeOfEncodeIsTheInstruction := by
  unfold Obligations.DecodeOfEncodeIsTheInstruction
  intro i h
  have hi := decodeWord_encode h
  exact ⟨hi, fun rest => by simp [encodeBytes, decode, hi]⟩

/-- Settles O30: what a word decodes to has that word (`isWordOf_of_decodeWord`). -/
theorem encodeOfDecodeIsTheWord : Obligations.EncodeOfDecodeIsTheWord := by
  unfold Obligations.EncodeOfDecodeIsTheWord
  exact fun _ _ => isWordOf_of_decodeWord

/-- Settles O28: the word of an instruction matches its row (`row_matches_encode`), rows that match one word are
one row (`opcodeTable_disjoint`), and a word that matches a row is in no illegal space. -/
theorem decodingSelectsTheUniqueRow : Obligations.DecodingSelectsTheUniqueRow := by
  unfold Obligations.DecodingSelectsTheUniqueRow
  refine fun op => ⟨fun i h => ?_, fun r hr hmatch => ?_⟩
  · have hmatch : i.row.matches op = true := (isWordOf_of_decodeWord h).2 ▸ row_matches_encode i
    exact ⟨i.row_mem_opcodeTable, hmatch, fun r hr hr' =>
      opcodeTable_disjoint r hr i.row i.row_mem_opcodeTable (OpcodeRow.agree_of_matches hr' hmatch)⟩
  · obtain ⟨i, -, rfl⟩ := List.mem_map.1 hr
    exact decodeWord_ok_iff.2 (legal_of_row_matches hmatch)

/-- Settles O31, by evaluation. -/
theorem wordsOfTheTableDecode : Obligations.WordsOfTheTableDecode := by
  unfold Obligations.WordsOfTheTableDecode
  decide

end Sys2Proof

namespace Sys2Proof.Machine

/-- A RUNNING core takes UNIMPLEMENTED_OPCODE on a word of the illegal spaces (R77). -/
theorem step_of_illegalSpace {s : State} {op : Opcode} (hrun : s.status = .running) (hfetch : s.fetch = .ok op)
    (hill : IllegalSpace op.toNat) : step s = .next (s.enterFault .unimplementedOpcode (some op) none) := by
  cases hd : decodeWord op with
  | ok i => exact absurd hill (decodeWord_ok_iff.1 ⟨i, hd⟩)
  | error e => rw [step_of_running hrun, stepRunning_of_decode_error hfetch hd]

/-- Settles O27: the fetched word decodes exactly when it is in no illegal space (`decodeWord_ok_iff`), and a fault
changes only status. -/
theorem illegalSpacesTakeTheFault : Obligations.IllegalSpacesTakeTheFault := by
  unfold Obligations.IllegalSpacesTakeTheFault
  intro s w hrun hpc hw
  obtain ⟨op, hfetch, rfl⟩ : ∃ op, s.fetch = .ok op ∧ op.toNat = w :=
    ⟨_, (s.fetch_ok_iff _).2 ⟨hpc, rfl⟩, (wordOfBytes_toNat _ _).trans hw.symm⟩
  rw [BitVec.ofNat_toNat, BitVec.setWidth_eq]
  exact ⟨fun hill => ⟨_, step_of_illegalSpace hrun hfetch hill, rfl, .enterFault s _ _ _⟩, decodeWord_ok_iff.2⟩

end Sys2Proof.Machine

/-! # Fetch, decode and fault (40_fetch_decode.md rules R90 to R96)

What the next step runs is what the fetch answers, decoded; an execute completes in the status it began in or takes one
fault with the word it ran; and no transaction but STEP and RESET touches status or the program's registers. -/

namespace Sys2Proof

/-! ## Decoding the two bytes of a word (R93) -/

theorem decode_pair_eq_ok_iff {hi lo : Byte} {i : Instr} {rest : List Byte} :
    decode [hi, lo] = .ok (i, rest) ↔ decodeWord (wordOfBytes hi lo) = .ok i ∧ rest = [] := by
  cases h : decodeWord (wordOfBytes hi lo) <;> simp [decode, h, eq_comm]

theorem decodeWord_of_decodeTableWord {nbits w : Nat} {i : Instr} (h : decodeTableWord nbits w = some i) :
    decodeWord (BitVec.ofNat 16 (w % 2 ^ nbits)) = .ok i := by
  unfold decodeTableWord at h
  dsimp only at h
  split at h <;> cases h
  rename_i hd
  simpa using (decode_pair_eq_ok_iff.1 hd).1

end Sys2Proof

namespace Sys2Proof.Machine

/-! ## What the next step runs (R90 to R94) -/

theorem step_of_decode_ok {s : State} {op : Opcode} {i : Instr} (hrun : s.status = .running)
    (hfetch : s.fetch = .ok op) (hd : decodeWord op = .ok i) : step s = exec i s := by
  rw [step_of_running hrun, stepRunning_of_decode_ok hfetch hd]

@[simp] theorem State.fetchReady_status (s : State) : s.fetchReady.status = .running := rfl

/-- The program base is an address with two bytes (log 9). -/
theorem State.fetchReady_pc_lt (s : State) : s.fetchReady.pc.toNat + 1 < 4096 := by
  unfold State.fetchReady
  split
  · assumption
  · simp [Config.programBase]

theorem State.fetchReady_memory (s : State) : s.fetchReady.mem = s.mem ∧ s.fetchReady.params = s.params := by
  unfold State.fetchReady
  split
  · exact ⟨rfl, rfl⟩
  · exact ⟨rfl, rfl⟩

/-- A word placed at pc is the word fetched there (R53, R91). -/
theorem State.placeWord_fetch {s : State} (hm : Memory.wf s.params s.mem) (hpc : s.pc.toNat + 1 < 4096) (w : Word) :
    (s.placeWord w).fetch = .ok w := by
  have hhi : (s.placeWord w).readByte s.pc.toNat = highByte w :=
    State.storeBytes_readByte_inside hm.1 s.pc.toNat [highByte w, lowByte w] (k := 0) (by simp)
  have hlo : (s.placeWord w).readByte (s.pc.toNat + 1) = lowByte w :=
    State.storeBytes_readByte_inside hm.1 s.pc.toNat [highByte w, lowByte w] (k := 1) (by simp)
  have hkeep : (s.placeWord w).pc = s.pc := State.storeBytes_pc ..
  refine (State.fetch_ok_iff _ _).2 ⟨by rwa [hkeep], ?_⟩
  rw [hkeep, hhi, hlo, wordOfBytes_highByte_lowByte]

theorem State.withFetchWord_status (s : State) (nbits w : Nat) : (s.withFetchWord nbits w).status = .running :=
  State.storeBytes_status ..

theorem State.withFetchWord_fetch {s : State} (hm : Memory.wf s.params s.mem) (nbits w : Nat) :
    (s.withFetchWord nbits w).fetch = .ok (BitVec.ofNat 16 (w % 2 ^ nbits)) := by
  obtain ⟨hmem, hparams⟩ := s.fetchReady_memory
  exact State.placeWord_fetch (by rwa [hmem, hparams]) s.fetchReady_pc_lt _

/-- Settles O32: the placed word is fetched (`State.withFetchWord_fetch`) and decodes to the instruction. -/
theorem placedWordRunsNext : Obligations.PlacedWordRunsNext := by
  unfold Obligations.PlacedWordRunsNext
  intro s w i hm hw
  exact step_of_decode_ok (s.withFetchWord_status 16 w) (State.withFetchWord_fetch hm 16 w)
    (decodeWord_of_decodeTableWord hw)

/-- Settles O25: both bytes exist, so the fetch puts them together, and the step runs what they decode to. -/
theorem stepRunsTheDecodedInstruction : Obligations.StepRunsTheDecodedInstruction := by
  unfold Obligations.StepRunsTheDecodedInstruction
  intro s i hrun hpc hd
  exact step_of_decode_ok hrun ((s.fetch_ok_iff _).2 ⟨hpc, rfl⟩) (decode_pair_eq_ok_iff.1 hd).1

/-- Without both bytes, a RUNNING core takes FETCH_OUT_OF_BOUNDS with the first address outside memory (R91). -/
theorem step_of_fetchOutOfBounds {s : State} (hrun : s.status = .running) (hpc : 4096 ≤ s.pc.toNat + 1) :
    step s = .next (s.enterFault .fetchOutOfBounds none (some (max s.pc.toNat 4096))) := by
  rw [step_of_running hrun, stepRunning_of_fetch_error ((s.fetch_error_iff _).2 ⟨hpc, rfl⟩)]

/-- Settles O26: the two bytes are put together high byte first, and out of range the greater of pc and 4096 is the
first address outside memory. -/
theorem fetchIsBigEndianAndBounded : Obligations.FetchIsBigEndianAndBounded := by
  unfold Obligations.FetchIsBigEndianAndBounded
  intro s
  refine ⟨fun hpc => ⟨_, (s.fetch_ok_iff _).2 ⟨hpc, rfl⟩, wordOfBytes_toNat _ _⟩, fun hrun hpc => ?_,
    fun hrun hpc => ?_⟩
  · have hstep := step_of_fetchOutOfBounds hrun (Nat.le_succ_of_le hpc)
    rw [Nat.max_eq_left hpc] at hstep
    exact ⟨_, hstep, rfl, .enterFault s _ _ _⟩
  · have hstep := step_of_fetchOutOfBounds hrun (by omega)
    rw [hpc] at hstep
    exact ⟨_, hstep, rfl, .enterFault s _ _ _⟩

/-! ## An execute completes or takes one fault (R95) -/

/-- A result of executing `i` in `s` that, where it goes on, is in the status of `s`, or is `s` with a fault of `i`
taken. -/
def CompletesOrFaults (s : State) (i : Instr) (r : Result) : Prop :=
  ∀ t, r = .next t → t.status = s.status ∨ ∃ kind addr, t = s.enterFault kind (some (encode i)) addr

namespace CompletesOrFaults

variable {s : State} {i : Instr}

theorem next {t : State} (h : t.status = s.status) : CompletesOrFaults s i (.next t) := by
  intro u hu
  cases hu
  exact .inl h

theorem withData {len : Nat} {body : State → State} (h : (body s.advance).status = s.status) :
    CompletesOrFaults s i (withData s i len body) := by
  intro t ht
  rcases withData_cases ht with ⟨-, rfl⟩ | ⟨a, -, rfl⟩
  · exact .inl h
  · exact .inr ⟨_, _, rfl⟩

theorem withKey {x : Reg} {body : Fin 16 → State → State} (h : ∀ k, (body k s.advance).status = s.status) :
    CompletesOrFaults s i (withKey s i x body) := by
  intro t ht
  rcases withKey_cases ht with ⟨k, -, rfl⟩ | ⟨-, rfl⟩
  · exact .inl (h k)
  · exact .inr ⟨_, _, rfl⟩

theorem withPush {w : Word} {body : State → State} (h : ∀ t, (body t).status = t.status) :
    CompletesOrFaults s i (withPush s i w body) := by
  intro t ht
  rcases withPush_cases ht with ⟨k, -, rfl⟩ | ⟨-, rfl⟩
  · exact .inl (h _)
  · exact .inr ⟨_, _, rfl⟩

theorem withPop {body : Word → State → State} (h : ∀ w t, (body w t).status = t.status) :
    CompletesOrFaults s i (withPop s i body) := by
  intro t ht
  rcases withPop_cases ht with ⟨k, -, rfl⟩ | ⟨-, rfl⟩
  · exact .inl (h _ _)
  · exact .inr ⟨_, _, rfl⟩

end CompletesOrFaults

theorem execLdVxK_completesOrFaults (x : Reg) (s : State) : CompletesOrFaults s (.ldVxK x) (execLdVxK x s) := by
  unfold execLdVxK
  split
  · exact .next rfl
  · exact .next rfl

/-- The forms that may fault, each by the shared operation it is; the flagged write-backs and the skips; and the
straight-line instructions, which write no status. -/
theorem exec_completesOrFaults (i : Instr) (s : State) : CompletesOrFaults s i (exec i s) := by
  cases i with
  | ret => rw [exec_ret]; exact .withPop fun _ _ => rfl
  | call nnn => rw [exec_call]; exact .withPush fun _ => rfl
  | drw x y n => rw [exec_drw]; exact .withData rfl
  | ldB x => rw [exec_ldB]; exact .withData (State.storeBytes_status ..)
  | ldMemVx x => rw [exec_ldMemVx]; exact .withData (State.storeBytes_status ..)
  | ldVxMem x => rw [exec_ldVxMem]; exact .withData rfl
  | skp x => rw [exec_skp]; exact .withKey fun _ => State.skipIf_status ..
  | sknp x => rw [exec_sknp]; exact .withKey fun _ => State.skipIf_status ..
  | ldVxK x => exact execLdVxK_completesOrFaults x s
  | seImm | sneImm | seReg | sneReg => exact .next (State.skipIf_status ..)
  | addReg | subReg | shr | subn | shl => exact .next (State.writeFlagged_status ..)
  | _ => exact .next rfl

/-- Settles O33: a fault of the fetch or the decode is taken by the step itself, one of the execute by the
instruction (`exec_completesOrFaults`), whose encoding is the fetched word. -/
theorem faultingStepCommitsNothing : Obligations.FaultingStepCommitsNothing := by
  unfold Obligations.FaultingStepCommitsNothing
  intro s t hrun hstep
  rw [step_of_running hrun] at hstep
  cases hfetch : s.fetch with
  | error a =>
    rw [stepRunning_of_fetch_error hfetch] at hstep
    cases hstep
    exact .inr ⟨_, rfl, rfl, nofun, fun _ _ => rfl⟩
  | ok op =>
    cases hd : decodeWord op with
    | error e =>
      rw [stepRunning_of_decode_error hfetch hd] at hstep
      cases hstep
      exact .inr ⟨_, rfl, rfl, fun _ h => congrArg some (Except.ok.inj h), nofun⟩
    | ok i =>
      rw [stepRunning_of_decode_ok hfetch hd] at hstep
      rcases exec_completesOrFaults i s t hstep with hstatus | ⟨kind, addr, rfl⟩
      · exact .inl (hstatus.trans hrun)
      · rw [(isWordOf_of_decodeWord hd).2]
        exact .inr ⟨_, rfl, rfl, fun _ h => congrArg some (Except.ok.inj h), nofun⟩

/-! ## What STEP returns (R90, R96) -/

theorem State.stepReturn_of_halted {s : State} {r : FaultRecord} (h : s.status = .halted r) :
    s.stepReturn = some r := by
  unfold State.stepReturn
  rw [h]

theorem State.stepReturn_eq_none_iff (s : State) : s.stepReturn = none ↔ s.status = .running := by
  cases h : s.status <;> simp [State.stepReturn, h]

theorem transact_step_ok_iff {s t : State} (h : step s = .next t) :
    transact s .step = .next (.stepped none, t) ↔ t.status = .running := by
  rw [transact_step h, ← State.stepReturn_eq_none_iff]
  simp

theorem transact_step_fault {s t : State} {r : FaultRecord} (h : step s = .next t) (ht : t.status = .halted r) :
    transact s .step = .next (.stepped (some r), t) := by
  rw [transact_step h, State.stepReturn_of_halted ht]

/-! ## What the other transactions leave as it was (R127, R180, R184, R202) -/

/-- `t` has the status, the registers of the program and the display of `s`. -/
structure SameProgramState (s t : State) : Prop where
  status : t.status = s.status
  pc     : t.pc = s.pc
  V      : t.V = s.V
  I      : t.I = s.I
  stack  : t.stack = s.stack
  SP     : t.SP = s.SP
  disp   : t.disp = s.disp

theorem SameProgramState.refl (s : State) : SameProgramState s s := ⟨rfl, rfl, rfl, rfl, rfl, rfl, rfl⟩

theorem State.tick_sameProgramState (s : State) : SameProgramState s s.tick.2 := ⟨rfl, rfl, rfl, rfl, rfl, rfl, rfl⟩

theorem State.keyPress_sameProgramState {s t : State} {index : Nat} {pressed : Bool}
    (h : s.keyPress index pressed = .ok t) : SameProgramState s t := by
  unfold State.keyPress at h
  split at h <;> cases h
  exact ⟨rfl, rfl, rfl, rfl, rfl, rfl, rfl⟩

theorem State.load_sameProgramState {s t : State} {bytes : List Byte} (h : s.load bytes = .ok t) :
    SameProgramState s t := by
  unfold State.load at h
  split at h <;> cases h
  constructor <;> simp

/-- A host error leaves the whole state (R175). -/
theorem State.replyTo_sameProgramState {s : State} {e : Except HostError State}
    (hok : ∀ t, e = .ok t → SameProgramState s t) : SameProgramState s (s.replyTo e).2 := by
  cases e with
  | ok t => exact hok t rfl
  | error e => exact .refl s

/-- In a HALTED core STEP too leaves everything: only RESET does not (R96). -/
theorem transact_sameProgramState_of_halted {s : State} {r : FaultRecord} (hs : s.status = .halted r)
    {tr : Transaction} (htr : tr ≠ .reset) :
    ∃ reply t, transact s tr = .next (reply, t) ∧ SameProgramState s t := by
  cases tr with
  | step => exact ⟨_, s, transact_step_fault (step_of_halted hs) hs, .refl s⟩
  | tick => exact ⟨_, _, rfl, s.tick_sameProgramState⟩
  | key index pressed => exact ⟨_, _, rfl, State.replyTo_sameProgramState fun _ => State.keyPress_sameProgramState⟩
  | load bytes => exact ⟨_, _, rfl, State.replyTo_sameProgramState fun _ => State.load_sameProgramState⟩
  | reset => exact absurd rfl htr
  | display => exact ⟨_, s, rfl, .refl s⟩

/-- Settles O34: a HALTED core stands still under STEP, keeps its program state under everything but RESET
(`transact_sameProgramState_of_halted`), and STEP's reply is read off the state it leaves. -/
theorem haltedCoreKeepsItsRecordUntilReset : Obligations.HaltedCoreKeepsItsRecordUntilReset := by
  unfold Obligations.HaltedCoreKeepsItsRecordUntilReset
  refine ⟨fun s r hs => ⟨transact_step_fault (step_of_halted hs) hs, fun tr htr => ?_, _, rfl, rfl⟩,
    fun s t _ hstep => ⟨transact_step_ok_iff hstep, fun r => transact_step_fault hstep⟩⟩
  obtain ⟨reply, t, htransact, hsame⟩ := transact_sameProgramState_of_halted hs htr
  exact ⟨reply, t, htransact, hsame.status.trans hs, hsame.pc, hsame.V, hsame.I, hsame.stack, hsame.SP, hsame.disp⟩

end Sys2Proof.Machine

/-! # Control flow (41_control_flow.md rules R100 to R108)

CALL and RET each have one equation for the stack slot they use; RET after CALL is the two of them in a row. The skips
share one lemma over the condition, and every frame is composed from the `ChangesOnly` rules of the operations. -/

namespace Sys2Proof.Machine

/-! ## The next state of CALL and of RET (R101, R103) -/

theorem exec_call_of_slot {s : State} {k : Fin 16} (hk : k.val = s.SP.toNat) (nnn : BitVec 12) :
    exec (.call nnn) s =
      .next (((s.advance.setStack k (s.pc + 2)).setSP (s.SP + 1)).setPc (zextAddr nnn)) := by
  have hlt : s.SP.toNat < 16 := hk ▸ k.isLt
  obtain rfl : k = ⟨s.SP.toNat, hlt⟩ := Fin.ext hk
  rw [exec_call, withPush_ok hlt, State.advance_pc]

theorem exec_ret_of_slot {s : State} {k : Fin 16} (hk : k.val + 1 = s.SP.toNat) :
    exec .ret s = .next ((s.advance.setSP (s.SP - 1)).setPc s.stack[k]) := by
  rw [exec_ret, withPop_ok k hk]

theorem State.setStack_getElem_self (s : State) (k : Fin 16) (w : Word) : (s.setStack k w).stack[k] = w :=
  Vector.getElem_set_self k.isLt

/-- Below the full stack the 8-bit SP does not wrap (R27). -/
theorem sp_succ_toNat {b : Byte} (h : b.toNat < 16) : (b + 1).toNat = b.toNat + 1 := by
  bv_omega

theorem sp_pred_toNat {b : Byte} {n : Nat} (h : n + 1 = b.toNat) : (b - 1).toNat = n := by
  bv_omega

/-- Settles O6: the CALL stores pc0 + 2 in the slot of its SP, and a RET with SP one higher reads that slot
(`exec_call_of_slot`, `exec_ret_of_slot`). -/
theorem retReturnsBehindTheCall : Obligations.RetReturnsBehindTheCall := by
  unfold Obligations.RetReturnsBehindTheCall
  intro s nnn hlt
  obtain ⟨k, hk⟩ : ∃ k : Fin 16, k.val = s.SP.toNat := ⟨⟨_, hlt⟩, rfl⟩
  refine ⟨_, exec_call_of_slot hk nnn, fun t' hstack hSP => ?_⟩
  have hSP' : t'.SP = s.SP + 1 := hSP
  have hslot : k.val + 1 = t'.SP.toNat := by rw [hSP', sp_succ_toNat hlt, hk]
  have htop : t'.stack[k] = s.pc + 2 := by rw [hstack]; exact s.advance.setStack_getElem_self k _
  refine ⟨_, exec_ret_of_slot hslot, htop, ?_⟩
  show t'.SP - 1 = s.SP
  rw [hSP', BitVec.add_sub_cancel]

/-- Settles O4: `exec_call_of_slot` where the stack has room, `withPush_fault` where it is full. -/
theorem callPushesTheReturnAddress : Obligations.CallPushesTheReturnAddress := by
  unfold Obligations.CallPushesTheReturnAddress
  refine fun s nnn => ⟨fun k hk => ?_, fun hfull => ?_⟩
  · exact ⟨_, exec_call_of_slot hk nnn, zextAddr_toNat nnn, sp_succ_toNat (hk ▸ k.isLt),
      s.advance.setStack_getElem_self k _,
      ((((ChangesOnly.refl _ s).advance (.inl rfl)).setStack k _ (.inr (.inr rfl))).setSP _ (.inr (.inl rfl))).setPc _
        (.inl rfl)⟩
  · rw [exec_call, withPush_fault hfull]
    exact ⟨_, rfl, rfl, .enterFault s _ _ _⟩

/-- Settles O5: `exec_ret_of_slot` where the stack holds an entry, `withPop_fault` where it is empty. -/
theorem retPopsTheReturnAddress : Obligations.RetPopsTheReturnAddress := by
  unfold Obligations.RetPopsTheReturnAddress
  refine fun s => ⟨fun k hk => ?_, fun hempty => ?_⟩
  · exact ⟨_, exec_ret_of_slot hk, rfl, sp_pred_toNat hk,
      (((ChangesOnly.refl _ s).advance (.inl rfl)).setSP _ (.inr rfl)).setPc _ (.inl rfl)⟩
  · rw [exec_ret, withPop_fault hempty]
    exact ⟨_, rfl, rfl, .enterFault s _ _ _⟩

/-! ## NOP and the jumps (R100, R102, R108) -/

theorem advance_changesOnly_pc (s : State) : ChangesOnly (fun p => p = .pc) s s.advance :=
  (ChangesOnly.refl _ s).advance rfl

/-- Settles O1: NOP answers the advanced state. -/
theorem nopOnlyAdvances : Obligations.NopOnlyAdvances := by
  unfold Obligations.NopOnlyAdvances
  exact fun s => ⟨s.advance, rfl, s.advance_pc, advance_changesOnly_pc s⟩

/-- A byte plus a 12-bit address fits 16 bits (R108). -/
theorem zextByte_add_zextAddr_toNat (b : Byte) (nnn : BitVec 12) :
    (zextByte b + zextAddr nnn).toNat = b.toNat + nnn.toNat := by
  rw [BitVec.toNat_add, zextByte_toNat, zextAddr_toNat, Nat.mod_eq_of_lt (by omega)]

/-- Settles O2: each jump is the advance and a write of pc, and no target exceeds 16 bits. -/
theorem jumpsSetOnlyPc : Obligations.JumpsSetOnlyPc := by
  unfold Obligations.JumpsSetOnlyPc
  intro s nnn
  have hframe (w : Word) := (advance_changesOnly_pc s).setPc w rfl
  exact ⟨⟨_, rfl, zextAddr_toNat nnn, hframe _⟩, ⟨_, rfl, zextByte_add_zextAddr_toNat _ nnn, hframe _⟩⟩

/-! ## The register skips (R97, R104 to R107) -/

theorem advance_skipIf_pc (s : State) (c : Bool) : (s.advance.skipIf c).pc = s.pc + if c then 4 else 2 := by
  cases c
  · rfl
  · exact BitVec.add_assoc s.pc 2 2

/-- An instruction that skips on `c`, where `c` is decided by `skips` and by `falls`. -/
theorem exec_of_skipIf {i : Instr} {s : State} {c : Bool} {skips falls : Prop}
    (hexec : exec i s = .next (s.advance.skipIf c)) (hskips : skips → c = true) (hfalls : falls → c = false) :
    ∃ t, exec i s = .next t ∧ (skips → t.pc = s.pc + 4) ∧ (falls → t.pc = s.pc + 2) ∧
      ChangesOnly (fun p => p = .pc) s t := by
  refine ⟨_, hexec, fun h => ?_, fun h => ?_, (advance_changesOnly_pc s).skipIf c rfl⟩
  · rw [advance_skipIf_pc, hskips h, if_pos rfl]
  · rw [advance_skipIf_pc, hfalls h, if_neg Bool.false_ne_true]

/-- Settles O3: each skip is `exec_of_skipIf` at its own condition. -/
theorem skipsMovePcByTheirCondition : Obligations.SkipsMovePcByTheirCondition := by
  unfold Obligations.SkipsMovePcByTheirCondition
  exact fun s x y nn =>
    ⟨exec_of_skipIf rfl beq_iff_eq.2 beq_eq_false_iff_ne.2, exec_of_skipIf rfl bne_iff_ne.2 bne_eq_false_iff_eq.2,
      exec_of_skipIf rfl beq_iff_eq.2 beq_eq_false_iff_ne.2, exec_of_skipIf rfl bne_iff_ne.2 bne_eq_false_iff_eq.2⟩

end Sys2Proof.Machine

/-! # Display (42_display.md rules R121 to R127)

DRW is one equation over `State.drawOn`, the sprite at I drawn on a framebuffer; R122 and R125 are two readings of what
`drawOn` does cell by cell. -/

namespace Sys2Proof.Machine

/-! ## The sprite as a function of the framebuffer (R122) -/

/-- The framebuffer `d` with the sprite of `n` rows at I drawn at V[x], V[y], and the collision flag. -/
def State.drawOn (s : State) (x y : Reg) (n : Nat) (d : Display) : Display × Bool :=
  drawRows (s.readV x).toNat (s.readV y).toNat (s.readBytes (s.ea 0) n) (d, false)

/-- A set bit of that sprite falls on the cell. -/
def State.SpriteCovers (s : State) (x y : Reg) (n : Nat) (c : Fin 2048) : Prop :=
  RowsCover (s.readBytes (s.ea 0) n) (s.readV x).toNat (s.readV y).toNat c

theorem exec_drw_of_inRange {s : State} {n : Nat} (x y : Reg) (h : n = 0 ∨ s.I.toNat + n ≤ 4096) :
    exec (.drw x y n) s =
      .next ((s.advance.setDisp (s.drawOn x y n s.disp).1).writeV VF (flagByte (s.drawOn x y n s.disp).2)) := by
  rw [exec_drw, withData_ok h]
  rfl

theorem State.drawOn_zero (s : State) (x y : Reg) (d : Display) : s.drawOn x y 0 d = (d, false) := rfl

/-- Drawing reads the origin, I and the sprite's bytes alone. -/
theorem State.drawOn_congr {s s' : State} {x y : Reg} {n : Nat} (hI : s'.I = s.I)
    (hbytes : ∀ a, s'.readByte a = s.readByte a) (hx : s'.readV x = s.readV x) (hy : s'.readV y = s.readV y) :
    s'.drawOn x y n = s.drawOn x y n := by
  have hea : s'.ea 0 = s.ea 0 := congrArg (·.toNat + 0) hI
  have hrows := State.readBytes_congr (s.ea 0) n fun k _ => hbytes (s.ea 0 + k)
  funext d
  unfold State.drawOn
  rw [hx, hy, hea, hrows]

section

variable {s : State} {x y : Reg} {n : Nat}

/-- The rows the machine reads cover what the rule says they do. -/
theorem State.spriteCovers_cellIndex_iff {cx cy : Nat} (hcx : cx < 64) (hcy : cy < 32) :
    s.SpriteCovers x y n (cellIndex cx cy) ↔ Covers s x y n cx cy := by
  have hcell (r c : Nat) : cellIndex cx cy = cellIndex ((s.readV x).toNat + c) ((s.readV y).toNat + r) ↔
      ((s.readV x).toNat + c) % 64 = cx ∧ ((s.readV y).toNat + r) % 32 = cy := by
    rw [cellIndex_eq_iff, Nat.mod_eq_of_lt hcx, Nat.mod_eq_of_lt hcy, eq_comm, eq_comm (a := cy)]
  constructor
  · rintro ⟨r, c, hr, hc, hbit, h⟩
    rw [State.readBytes_getElem] at hbit
    rw [State.readBytes_length] at hr
    exact ⟨r, c, hr, hc, hbit, (hcell r c).1 h⟩
  · rintro ⟨r, c, hr, hc, hbit, h⟩
    have hlen : r < (s.readBytes (s.ea 0) n).length := by rwa [State.readBytes_length]
    refine ⟨r, c, hlen, hc, ?_, (hcell r c).2 h⟩
    rwa [State.readBytes_getElem]

variable (hn : n ≤ 15) (d : Display)

include hn

/-- `drawRows_spec` for the rows of an instruction, of which there are at most 15. -/
theorem State.drawOn_spec :
    (∀ c, (s.drawOn x y n d).1.cell c = true ↔ ¬ (d.cell c = true ↔ s.SpriteCovers x y n c)) ∧
    ((s.drawOn x y n d).2 = true ↔ ∃ c, s.SpriteCovers x y n c ∧ d.cell c = true) := by
  have hlen : (s.readBytes (s.ea 0) n).length ≤ 32 := by rw [State.readBytes_length]; omega
  obtain ⟨hcells, hflag⟩ := drawRows_spec (s.readV x).toNat (s.readV y).toNat _ (d, false) hlen
  exact ⟨hcells, hflag.trans (or_iff_right Bool.false_ne_true)⟩

/-- R125: what is inverted twice is as it was. -/
theorem State.drawOn_drawOn : (s.drawOn x y n (s.drawOn x y n d).1).1 = d := by
  refine Display.ext_cells fun c => ?_
  rw [Bool.eq_iff_iff, (State.drawOn_spec hn _).1, (State.drawOn_spec hn d).1]
  tauto

/-- R125: a covered cell is lit after the first draw exactly when that draw lit it. -/
theorem State.drawOn_drawOn_flag : (s.drawOn x y n (s.drawOn x y n d).1).2 = true ↔
    ∃ c, d.cell c = false ∧ (s.drawOn x y n d).1.cell c = true := by
  rw [(State.drawOn_spec hn _).2]
  refine exists_congr fun c => ?_
  rw [(State.drawOn_spec hn d).1, ← Bool.not_eq_true]
  tauto

end

/-! ## Flags and cells -/

/-- The flag byte says whether what the flag decides holds. -/
theorem flagByte_of_iff {f : Bool} {p : Prop} (h : f = true ↔ p) :
    (p → flagByte f = 1) ∧ (¬ p → flagByte f = 0) :=
  ⟨fun hp => if_pos (h.2 hp), fun hp => if_neg (mt h.1 hp)⟩

theorem exists_cell_iff {p : Fin 2048 → Prop} :
    (∃ c, p c) ↔ ∃ cx cy, cx < 64 ∧ cy < 32 ∧ p (cellIndex cx cy) := by
  constructor
  · rintro ⟨c, hc⟩
    exact ⟨c.val % 64, c.val / 64, by omega, by omega, cellIndex_coordinates c ▸ hc⟩
  · rintro ⟨cx, cy, -, -, hc⟩
    exact ⟨_, hc⟩

/-- R122's collision in coordinates. -/
theorem State.drawOn_collision_iff {s : State} {x y : Reg} {n : Nat} (hn : n ≤ 15) :
    (s.drawOn x y n s.disp).2 = true ↔
      ∃ cx cy, cx < 64 ∧ cy < 32 ∧ Covers s x y n cx cy ∧ s.cell cx cy = true := by
  rw [(State.drawOn_spec hn s.disp).2, exists_cell_iff]
  refine exists_congr fun cx => exists_congr fun cy => and_congr_right fun hcx => and_congr_right fun hcy => ?_
  exact and_congr_left' (State.spriteCovers_cellIndex_iff hcx hcy)

/-- Settles O8: in range, `State.drawOn_spec` read in coordinates; out of range, `withData_fault`. -/
theorem drawTogglesTheCoveredCells : Obligations.DrawTogglesTheCoveredCells := by
  unfold Obligations.DrawTogglesTheCoveredCells
  refine fun s x y n hn => ⟨fun hin => ?_, fun h0 hout => ?_⟩
  · obtain ⟨hlit, hclear⟩ := flagByte_of_iff (State.drawOn_collision_iff (s := s) (x := x) (y := y) hn)
    refine ⟨_, exec_drw_of_inRange x y hin, fun cx cy hcx hcy => ?_, fun h => ?_, fun h => ?_, rfl, ?_⟩
    · rw [← State.spriteCovers_cellIndex_iff hcx hcy]
      exact (State.drawOn_spec hn s.disp).1 _
    · rw [State.writeV_readV_self, hlit h]
    · rw [State.writeV_readV_self, hclear h]
    · exact (((ChangesOnly.refl _ s).advance (.inl rfl)).setDisp _ fun c => .inr (.inr ⟨c, rfl⟩)).writeV VF _
        (.inr (.inl rfl))
  · rw [exec_drw, withData_fault h0 hout]
    exact ⟨_, rfl, rfl, .enterFault s _ _ _⟩

/-- Settles O10: the second DRW draws the same sprite (`State.drawOn_congr`) on what the first left
(`State.drawOn_drawOn`, `State.drawOn_drawOn_flag`). -/
theorem drawTwiceRestoresTheDisplay : Obligations.DrawTwiceRestoresTheDisplay := by
  unfold Obligations.DrawTwiceRestoresTheDisplay
  intro s x y n hn hin
  refine ⟨_, exec_drw_of_inRange x y hin, fun s' hdisp hI hbytes hx hy => ?_⟩
  have hdisp' : s'.disp = (s.drawOn x y n s.disp).1 := hdisp
  obtain ⟨hlit, hclear⟩ := flagByte_of_iff (State.drawOn_drawOn_flag (s := s) (x := x) (y := y) hn s.disp)
  refine ⟨_, exec_drw_of_inRange x y (hI ▸ hin), ?_⟩
  rw [State.drawOn_congr hI hbytes hx hy, hdisp', State.writeV_readV_self]
  exact ⟨State.drawOn_drawOn hn s.disp, hlit, hclear⟩

/-! ## CLS, the sprite of no rows, and DISPLAY (R121, R123, R127) -/

/-- Settles O7: CLS is the advance and a clear framebuffer. -/
theorem clsClearsEveryCell : Obligations.ClsClearsEveryCell := by
  unfold Obligations.ClsClearsEveryCell
  exact fun s => ⟨_, rfl, Display.clear_cell, rfl,
    ((ChangesOnly.refl _ s).advance (.inl rfl)).setDisp _ fun c => .inr ⟨c, rfl⟩⟩

/-- Settles O9: no rows leave the framebuffer as it was, and the flag off (`State.drawOn_zero`). -/
theorem drawOfZeroRowsOnlyClearsVF : Obligations.DrawOfZeroRowsOnlyClearsVF := by
  unfold Obligations.DrawOfZeroRowsOnlyClearsVF
  intro s x y
  have hexec : exec (.drw x y 0) s = .next (s.advance.writeV VF 0) := by
    rw [exec_drw_of_inRange x y (.inl rfl), State.drawOn_zero]
    rfl
  exact ⟨_, hexec, State.writeV_readV_self .., rfl,
    ((ChangesOnly.refl _ s).advance (.inl rfl)).writeV VF _ (.inr rfl)⟩

theorem cellIndex_of_lt {x y : Nat} (hx : x < 64) (hy : y < 32) :
    cellIndex x y = ⟨y * 64 + x, by omega⟩ :=
  Fin.ext (by simp only [cellIndex, Nat.mod_eq_of_lt hx, Nat.mod_eq_of_lt hy])

/-- Settles O51: DISPLAY answers the framebuffer itself, whose cells `cellIndex` numbers row by row. -/
theorem displayReturnsTheCells : Obligations.DisplayReturnsTheCells := by
  unfold Obligations.DisplayReturnsTheCells
  refine fun s => ⟨s.disp, rfl, fun x y hx hy => ?_⟩
  rw [State.cell, cellIndex_of_lt hx hy]

end Sys2Proof.Machine

/-! # Registers and ALU (43_alu.md rules R130 to R143)

Each instruction is the advance and a write of V[x], or the flagged write-back of a computed byte and flag. What R130
says of a flagged write-back is one lemma over that pair (`flaggedEffect_writeFlagged`), and each computation has one
lemma that says which exact natural and which condition its pair stands for. -/

namespace Sys2Proof.Machine

/-! ## The four computations as exact naturals (R138 to R142) -/

/-- The byte is the exact result modulo 256, and the flag decides the condition. -/
def StandsFor (r : Byte × Bool) (result : Nat) (flag : Prop) : Prop :=
  r.1.toNat = result % 256 ∧ (r.2 = true ↔ flag)

theorem addCarry_standsFor (a b : Byte) : StandsFor (addCarry a b) (a.toNat + b.toNat) (255 < a.toNat + b.toNat) :=
  ⟨BitVec.toNat_add a b, decide_eq_true_iff⟩

theorem subNoBorrow_standsFor (a b : Byte) :
    StandsFor (subNoBorrow a b) (a.toNat + 256 - b.toNat) (b.toNat ≤ a.toNat) := by
  refine ⟨?_, decide_eq_true_iff⟩
  show (a - b).toNat = _
  bv_omega

theorem shiftRight_standsFor (v : Byte) : StandsFor (shiftRight v) (v.toNat / 2) (v.toNat % 2 = 1) := by
  constructor
  · show (v >>> 1).toNat = _
    rw [BitVec.toNat_ushiftRight, Nat.shiftRight_eq_div_pow]
    omega
  · show v.toNat.testBit 0 = true ↔ _
    rw [Nat.testBit_zero, decide_eq_true_iff]

theorem shiftLeft_standsFor (v : Byte) : StandsFor (shiftLeft v) (v.toNat * 2) (128 ≤ v.toNat) := by
  constructor
  · show (v <<< 1).toNat = _
    rw [BitVec.toNat_shiftLeft, Nat.shiftLeft_eq]
  · show v.toNat.testBit 7 = true ↔ _
    rw [Nat.testBit_eq_decide_div_mod_eq, decide_eq_true_iff]
    omega

/-! ## The flagged write-back (R130) -/

section

variable (s : State) {x : Reg} (r : Byte) (f : Bool)

/-- The result is in Vx unless a flag written last overwrites it. -/
theorem State.writeFlagged_readV_result (h : x = VF → s.params.vfWriteOrder = .resultLast) :
    (s.writeFlagged x r f).readV x = r := by
  rw [State.writeFlagged_readV]
  by_cases hx : x = VF
  · simp [hx, h hx]
  · simp [hx]

/-- The flag is in VF unless a result written last overwrites it. -/
theorem State.writeFlagged_readV_flag (h : x = VF → s.params.vfWriteOrder = .flagLast) :
    (s.writeFlagged x r f).readV VF = flagByte f := by
  rw [State.writeFlagged_readV]
  by_cases hx : x = VF
  · simp [hx, h hx]
  · simp [Ne.symm hx]

end

theorem flaggedEffect_writeFlagged (s : State) (x : Reg) {r : Byte × Bool} {result : Nat} {flag : Prop}
    (h : StandsFor r result flag) : FlaggedEffect s (s.advance.writeFlagged x r.1 r.2) x result flag := by
  obtain ⟨hresult, hflag⟩ := h
  have hset := flagByte_of_iff hflag
  refine ⟨fun hx => ?_, fun _ hlast => ?_, fun hx hlast => ?_, State.writeFlagged_pc .., ?_⟩
  · rw [s.advance.writeFlagged_readV_result _ _ (absurd · hx), s.advance.writeFlagged_readV_flag _ _ (absurd · hx)]
    exact ⟨hresult, hset⟩
  · rwa [s.advance.writeFlagged_readV_flag _ _ fun _ => hlast]
  · rwa [← hx, s.advance.writeFlagged_readV_result _ _ fun _ => hlast]
  · exact ((ChangesOnly.refl _ s).advance (.inl rfl)).writeFlagged x _ _ (.inr (.inl rfl)) (.inr (.inr rfl))

/-- Settles O12: each instruction is the flagged write-back of its own computation. -/
theorem flaggedResultsUnderBothOrders : Obligations.FlaggedResultsUnderBothOrders := by
  unfold Obligations.FlaggedResultsUnderBothOrders
  rintro s x y _ _ rfl rfl
  exact ⟨⟨_, rfl, flaggedEffect_writeFlagged s x (addCarry_standsFor _ _)⟩,
    ⟨_, rfl, flaggedEffect_writeFlagged s x (shiftRight_standsFor _)⟩,
    ⟨_, rfl, flaggedEffect_writeFlagged s x (subNoBorrow_standsFor _ _)⟩,
    ⟨_, rfl, flaggedEffect_writeFlagged s x (shiftLeft_standsFor _)⟩⟩

/-! ## Results without a flag, and the variants (R131 to R137, R139) -/

theorem advance_writeV_changesOnly (s : State) (x : Reg) (b : Byte) :
    ChangesOnly (fun p => p = .pc ∨ p = .reg x) s (s.advance.writeV x b) :=
  ((ChangesOnly.refl _ s).advance (.inl rfl)).writeV x b (.inr rfl)

/-- Settles O13: ALU_VARIANT picks the written byte of 8xy2 and 8xy3, and the computation written back by 8xy5. -/
theorem variantResultsUnderBothVariants : Obligations.VariantResultsUnderBothVariants := by
  unfold Obligations.VariantResultsUnderBothVariants
  rintro s x y _ _ rfl rfl
  have hframe := advance_writeV_changesOnly s x
  have hand {v : Config.AluVariant} (h : s.params.aluVariant = v) :=
    (s.advance.writeV_readV_self x _).trans (congrArg (aluAnd · (s.readV x) (s.readV y)) h)
  have hxor {v : Config.AluVariant} (h : s.params.aluVariant = v) :=
    (s.advance.writeV_readV_self x _).trans (congrArg (aluXor · (s.readV x) (s.readV y)) h)
  refine ⟨⟨_, rfl, hand, hand, rfl, hframe _⟩, ⟨_, rfl, hxor, hxor, rfl, hframe _⟩,
    ⟨_, rfl, fun h => flaggedEffect_writeFlagged s x ?_, fun h => flaggedEffect_writeFlagged s x ?_⟩⟩
  · rw [h]
    exact addCarry_standsFor _ _
  · rw [h]
    exact subNoBorrow_standsFor _ _

/-- Settles O11: each instruction is the advance and one write of V[x]. -/
theorem registerResultsWithoutFlag : Obligations.RegisterResultsWithoutFlag := by
  unfold Obligations.RegisterResultsWithoutFlag
  intro s x y nn
  have hread (b : Byte) : (s.advance.writeV x b).readV x = b := State.writeV_readV_self ..
  have hframe := advance_writeV_changesOnly s x
  refine ⟨⟨_, rfl, hread _, rfl, hframe _⟩, ⟨_, rfl, ?_, rfl, hframe _⟩, ⟨_, rfl, hread _, rfl, hframe _⟩,
    ⟨_, rfl, hread _, rfl, hframe _⟩⟩
  rw [hread]
  exact BitVec.toNat_add (s.readV x) nn

/-! ## The random byte (R143) -/

/-- Settles O14: RND takes the draw at the counter, moves the counter on, and writes V[x]. -/
theorem rndMasksAFreeDraw : Obligations.RndMasksAFreeDraw := by
  unfold Obligations.RndMasksAFreeDraw
  exact fun s x nn => ⟨_, rfl, State.writeV_readV_self .., rfl, rfl,
    (((ChangesOnly.refl _ s).advance (.inl rfl)).drawRnd (.inr (.inr rfl))).writeV x _ (.inr (.inl rfl))⟩

end Sys2Proof.Machine

/-! # Index register and memory (44_index_memory.md rules R150 to R155)

What completes has an advanced pc, so its frame is its column of R37. The three forms that reach memory share one fault
clause, and differ by what is stored at I or loaded from there. -/

namespace Sys2Proof.Machine

/-! ## Completing and faulting -/

/-- A fault leaves pc where it was, so an instruction that has advanced pc changed its own column only (R37, R95). -/
theorem exec_changesOnly_of_advanced {i : Instr} {s t : State} (h : exec i s = .next t) (hpc : t.pc = s.pc + 2) :
    ChangesOnly (mayChange s i) s t := by
  refine (exec_keepsColumn i s t h).resolve_right fun hfault => ?_
  have hsame : t.pc = s.pc := hfault .pc nofun
  have hmoved : s.pc + 2 ≠ s.pc := by bv_omega
  exact hmoved (hpc.symm.trans hsame)

/-- Data that does not fit below 4096 (R94, R172). -/
theorem exec_of_dataOutOfRange {i : Instr} {s : State} {n : Nat} {body : State → State}
    (hexec : exec i s = withData s i (n + 1) body) (h : 4096 ≤ s.I.toNat + n) :
    ∃ t, exec i s = .next t ∧
      t.status = .halted ⟨.dataOutOfBounds, s.pc, some (encode i), some (max s.I.toNat 4096)⟩ ∧
      ChangesOnly (fun p => p = .status) s t :=
  ⟨_, hexec.trans (withData_fault n.succ_ne_zero (Nat.lt_succ_of_le h)), rfl, .enterFault s _ _ _⟩

/-! ## Setting I (R150 to R152) -/

/-- Character k's address is 5k; five times a byte fits 16 bits (R152). -/
theorem zextByte_mul_five_toNat (b : Byte) : (zextByte b * 5).toNat = b.toNat * 5 := by
  rw [BitVec.toNat_mul, zextByte_toNat]
  exact Nat.mod_eq_of_lt (show b.toNat * 5 < 65536 by omega)

/-- R151: modulo 65536. -/
theorem add_zextByte_toNat (w : Word) (b : Byte) : (w + zextByte b).toNat = (w.toNat + b.toNat) % 65536 := by
  rw [BitVec.toNat_add, zextByte_toNat]

/-- Settles O15: each instruction is the advance and one write of I. -/
theorem indexRegisterResults : Obligations.IndexRegisterResults := by
  unfold Obligations.IndexRegisterResults
  exact fun s x nnn =>
    ⟨⟨_, rfl, zextAddr_toNat nnn, rfl, exec_changesOnly_of_advanced (i := .ldI nnn) rfl rfl⟩,
      ⟨_, rfl, add_zextByte_toNat s.I _, rfl, exec_changesOnly_of_advanced (i := .addI x) rfl rfl⟩,
      ⟨_, rfl, zextByte_mul_five_toNat _, rfl, exec_changesOnly_of_advanced (i := .ldF x) rfl rfl⟩⟩

/-- Settles O16: I is 5k (`zextByte_mul_five_toNat`), where the font area holds character k. -/
theorem fontAddressPointsAtTheCharacter : Obligations.FontAddressPointsAtTheCharacter := by
  unfold Obligations.FontAddressPointsAtTheCharacter
  intro s x hfont k hk
  refine ⟨_, rfl, fun j => ?_⟩
  have haddr : (zextByte (s.readV x) * 5).toNat + j.val = 5 * k.val + j.val := by
    rw [zextByte_mul_five_toNat, hk, Nat.mul_comm]
  exact (congrArg s.readByte haddr).trans (hfont ⟨5 * k.val + j.val, by omega⟩)

/-! ## Storing at I (R153, R154) -/

/-- Settles O17: the bytes stored at I are the digits (`State.storeBytes_readByte_inside`), and the quotients and
remainders of bytes are those of their naturals by definition. -/
theorem bcdStoresThreeDigits : Obligations.BcdStoresThreeDigits := by
  unfold Obligations.BcdStoresThreeDigits
  refine fun s x => ⟨fun hm hin => ?_, exec_of_dataOutOfRange (exec_ldB x s)⟩
  have hexec := (exec_ldB x s).trans (withData_ok (.inr hin))
  have hdigit (k : Fin 3) := congrArg BitVec.toNat
    (State.storeBytes_readByte_inside (s := s.advance) hm.1 (s.ea 0) (decimalDigits (s.readV x)) k.isLt)
  have hpc := s.advance.storeBytes_pc (s.ea 0) (decimalDigits (s.readV x))
  exact ⟨_, hexec, hdigit 0, hdigit 1, hdigit 2, hpc, exec_changesOnly_of_advanced hexec hpc⟩

/-- Settles O18: register k is stored at I + k (`State.storeRegs_readByte`). -/
theorem storeRegistersToMemory : Obligations.StoreRegistersToMemory := by
  unfold Obligations.StoreRegistersToMemory
  refine fun s x => ⟨fun hm hin => ?_, exec_of_dataOutOfRange (exec_ldMemVx x s)⟩
  have hexec := exec_ldMemVx_of_inRange hin
  have hpc := s.advance.storeBytes_pc (s.ea 0) (s.regsThrough x)
  exact ⟨_, hexec, fun k hk => State.storeRegs_readByte hm hk, hpc, exec_changesOnly_of_advanced hexec hpc⟩

/-! ## Loading from I (R155) -/

theorem exec_ldVxMem_of_inRange {s : State} {x : Reg} (h : s.I.toNat + x.val < 4096) :
    exec (.ldVxMem x) s = .next (s.advance.setV (s.loadedRegs x)) := by
  rw [exec_ldVxMem, withData_ok (.inr h)]

/-- Fx65 leaves the byte at I + k in register k. -/
theorem State.loadRegs_readV {s : State} {x k : Reg} (hk : k ≤ x) :
    (s.advance.setV (s.loadedRegs x)).readV k = s.readByte (s.ea k.val) :=
  (s.loadedRegs_getElem x k).trans (if_pos hk)

/-- Settles O19: register k is loaded from I + k (`State.loadRegs_readV`). -/
theorem loadRegistersFromMemory : Obligations.LoadRegistersFromMemory := by
  unfold Obligations.LoadRegistersFromMemory
  refine fun s x => ⟨fun hin => ?_, exec_of_dataOutOfRange (exec_ldVxMem x s)⟩
  have hexec := exec_ldVxMem_of_inRange hin
  exact ⟨_, hexec, fun k hk => State.loadRegs_readV hk, rfl, exec_changesOnly_of_advanced hexec rfl⟩

/-- Settles O20: register k goes to I + k and comes from there (`State.storeRegs_readByte`, `State.loadRegs_readV`). -/
theorem loadRestoresWhatStoreSaved : Obligations.LoadRestoresWhatStoreSaved := by
  unfold Obligations.LoadRestoresWhatStoreSaved
  intro s x hm hin
  refine ⟨_, exec_ldMemVx_of_inRange hin, fun t' hI hread => ?_⟩
  have hI' : t'.I = s.I := hI.trans (s.advance.storeBytes_I _ _)
  refine ⟨_, exec_ldVxMem_of_inRange (by rwa [hI']), fun k hk => ?_⟩
  have hea : t'.ea k.val = s.ea k.val := congrArg (·.toNat + k.val) hI'
  rw [State.loadRegs_readV hk, hread, hea]
  exact State.storeRegs_readByte hm hk

end Sys2Proof.Machine

/-! # Keys and timers (45_keys_timers.md rules R160 to R165)

The key skips are the skip lemma of the control flow at key V[x], with one fault clause between them; Fx0A is one
equation per answer of `State.leastKey`. -/

namespace Sys2Proof.Machine

/-! ## Waiting for a key (R163) -/

theorem exec_ldVxK_of_leastKey {s : State} {k : Fin 16} (h : s.leastKey = some k) (x : Reg) :
    exec (.ldVxK x) s = .next (s.advance.writeV x (BitVec.ofNat 8 k.val)) := by
  show execLdVxK x s = _
  unfold execLdVxK
  rw [h]

/-- Setting pc back undoes the advance, where pc wraps too. -/
theorem State.advance_setPc_back (s : State) : s.advance.setPc (s.advance.pc - 2) = s := by
  rw [State.advance_pc, BitVec.add_sub_cancel]
  rfl

theorem exec_ldVxK_of_noKey {s : State} (h : s.leastKey = none) (x : Reg) : exec (.ldVxK x) s = .next s := by
  show execLdVxK x s = _
  unfold execLdVxK
  rw [h]
  exact congrArg _ s.advance_setPc_back

/-- Settles O24: the least pressed key is what `State.leastKey` finds, and it finds none where none is pressed. -/
theorem keyWaitTakesTheLeastKey : Obligations.KeyWaitTakesTheLeastKey := by
  unfold Obligations.KeyWaitTakesTheLeastKey
  refine fun s x => ⟨fun k hk hlow => ?_, fun hnone => exec_ldVxK_of_noKey (s.leastKey_none_iff.2 hnone) x⟩
  have hexec := exec_ldVxK_of_leastKey ((s.leastKey_some_iff k).2 ⟨hk, hlow⟩) x
  refine ⟨_, hexec, ?_, rfl, advance_writeV_changesOnly s x _⟩
  rw [State.writeV_readV_self, BitVec.toNat_ofNat]
  exact Nat.mod_eq_of_lt (show k.val < 256 by omega)

/-! ## Skipping on a key (R160, R161) -/

/-- A register above 15 names no key (R160, R161). -/
theorem exec_of_keyOutOfRange {i : Instr} {s : State} {x : Reg} {body : Fin 16 → State → State}
    (hexec : exec i s = withKey s i x body) (h : 15 < (s.readV x).toNat) :
    ∃ t, exec i s = .next t ∧ ChangesOnly (fun p => p = .status) s t ∧
      t.status = .halted ⟨.keyIndexOutOfRange, s.pc, some (encode i), some (s.readV x).toNat⟩ :=
  ⟨_, hexec.trans (withKey_fault h), .enterFault s _ _ _, rfl⟩

/-- Settles O22: `exec_of_skipIf` on the key, or on its negation, where V[x] names one. -/
theorem keySkipsTestOneKey : Obligations.KeySkipsTestOneKey := by
  unfold Obligations.KeySkipsTestOneKey
  refine fun s x => ⟨fun k hk => ⟨?_, ?_⟩, fun h =>
    ⟨exec_of_keyOutOfRange (exec_skp x s) h, exec_of_keyOutOfRange (exec_sknp x s) h⟩⟩
  · exact exec_of_skipIf ((exec_skp x s).trans (withKey_ok k hk)) id id
  · exact exec_of_skipIf ((exec_sknp x s).trans (withKey_ok k hk)) (congrArg not) (congrArg not)

/-! ## The timers to and from a register (R162, R164, R165) -/

theorem State.soundActive_iff (s : State) : s.soundActive = true ↔ s.ST ≠ 0 := bne_iff_ne

theorem State.tick_soundEnd_iff (s : State) : s.tick.1 = true ↔ s.ST = 1 := beq_iff_eq

/-- Settles O23: each instruction is the advance and one write; the sound outputs are read off the ST written. -/
theorem timerMoves : Obligations.TimerMoves := by
  unfold Obligations.TimerMoves
  exact fun s x =>
    ⟨⟨_, rfl, State.writeV_readV_self .., rfl, advance_writeV_changesOnly s x _⟩,
      ⟨_, rfl, rfl, rfl, exec_changesOnly_of_advanced (i := .ldDTVx x) rfl rfl⟩,
      ⟨_, rfl, rfl, State.soundActive_iff _, State.tick_soundEnd_iff _, rfl,
        exec_changesOnly_of_advanced (i := .ldSTVx x) rfl rfl⟩⟩

end Sys2Proof.Machine

/-! # Faults, the stand-still ends of a run, TICK and KEY (60_exceptions.md rules R171, R180 to R184, R189)

A HALTED state after an execute names its shared operation and its kind; the two ends where a run stands still are
instructions whose next state is the state itself; TICK and KEY are read off the state operations they are. -/

namespace Sys2Proof.Machine

/-! ## The kind of a fault of the execute phase (R171) -/

section

variable {s t : State} {i : Instr} {r : FaultRecord}

theorem not_halted_of_next {u : State} (h : (.next u : Result) = .next t) (hu : u.status = .running) :
    t.status ≠ .halted r := by
  cases h
  rw [hu]
  nofun

theorem withPop_halted {body : Word → State → State} (h : withPop s i body = .next t) (ht : t.status = .halted r)
    (hbody : ∀ w, (body w (s.advance.setSP (s.SP - 1))).status = .running) : r.kind = .stackUnderflow := by
  rcases withPop_cases h with ⟨k, -, rfl⟩ | ⟨-, rfl⟩
  · exact absurd ht (not_halted_of_next rfl (hbody _))
  · cases ht
    rfl

theorem withPush_halted {w : Word} {body : State → State} (h : withPush s i w body = .next t)
    (ht : t.status = .halted r)
    (hbody : ∀ k, (body ((s.advance.setStack k w).setSP (s.SP + 1))).status = .running) :
    r.kind = .stackOverflow := by
  rcases withPush_cases h with ⟨k, -, rfl⟩ | ⟨-, rfl⟩
  · exact absurd ht (not_halted_of_next rfl (hbody k))
  · cases ht
    rfl

/-- No data, no fault: a DRW of no rows completes (R123). -/
theorem withData_halted {len : Nat} {body : State → State} (h : withData s i len body = .next t)
    (ht : t.status = .halted r) (hbody : (body s.advance).status = .running) :
    len ≠ 0 ∧ r.kind = .dataOutOfBounds := by
  rcases withData_cases h with ⟨-, rfl⟩ | ⟨a, ha, rfl⟩
  · exact absurd ht (not_halted_of_next rfl hbody)
  · cases ht
    exact ⟨((rangeFault_some_iff _ _ _).1 ha).1, rfl⟩

theorem withKey_halted {x : Reg} {body : Fin 16 → State → State} (h : withKey s i x body = .next t)
    (ht : t.status = .halted r) (hbody : ∀ k, (body k s.advance).status = .running) :
    r.kind = .keyIndexOutOfRange := by
  rcases withKey_cases h with ⟨k, -, rfl⟩ | ⟨-, rfl⟩
  · exact absurd ht (not_halted_of_next rfl (hbody k))
  · cases ht
    rfl

theorem exec_ldVxK_status {x : Reg} (h : exec (.ldVxK x) s = .next t) : t.status = s.status := by
  cases hk : s.leastKey with
  | some k =>
    cases (exec_ldVxK_of_leastKey hk x).symm.trans h
    rfl
  | none =>
    cases (exec_ldVxK_of_noKey hk x).symm.trans h
    rfl

end

/-- Settles O35: each form that may fault by the shared operation it is, whose body writes no status; every other
instruction completes in the status it began in. -/
theorem onlyNamedInstructionsFault : Obligations.OnlyNamedInstructionsFault := by
  unfold Obligations.OnlyNamedInstructionsFault
  intro i s t r hrun h ht
  cases i with
  | ret =>
    rw [exec_ret] at h
    exact .inl ⟨rfl, withPop_halted h ht fun _ => hrun⟩
  | call nnn =>
    rw [exec_call] at h
    exact .inr (.inl ⟨nnn, rfl, withPush_halted h ht fun _ => hrun⟩)
  | drw x y n =>
    rw [exec_drw] at h
    obtain ⟨hn, hkind⟩ := withData_halted h ht hrun
    exact .inr (.inr (.inl ⟨x, y, n, rfl, Nat.pos_of_ne_zero hn, hkind⟩))
  | ldB x =>
    rw [exec_ldB] at h
    have hkind := (withData_halted h ht ((State.storeBytes_status ..).trans hrun)).2
    exact .inr (.inr (.inr (.inl ⟨x, .inl rfl, hkind⟩)))
  | ldMemVx x =>
    rw [exec_ldMemVx] at h
    have hkind := (withData_halted h ht ((State.storeBytes_status ..).trans hrun)).2
    exact .inr (.inr (.inr (.inl ⟨x, .inr (.inl rfl), hkind⟩)))
  | ldVxMem x =>
    rw [exec_ldVxMem] at h
    have hkind := (withData_halted h ht hrun).2
    exact .inr (.inr (.inr (.inl ⟨x, .inr (.inr rfl), hkind⟩)))
  | skp x =>
    rw [exec_skp] at h
    have hkind := withKey_halted h ht fun _ => (State.skipIf_status ..).trans hrun
    exact .inr (.inr (.inr (.inr ⟨x, .inl rfl, hkind⟩)))
  | sknp x =>
    rw [exec_sknp] at h
    have hkind := withKey_halted h ht fun _ => (State.skipIf_status ..).trans hrun
    exact .inr (.inr (.inr (.inr ⟨x, .inr rfl, hkind⟩)))
  | ldVxK x => exact absurd ht (not_halted_of_next rfl ((exec_ldVxK_status h).trans hrun))
  | seImm | sneImm | seReg | sneReg => exact absurd ht (not_halted_of_next h ((State.skipIf_status ..).trans hrun))
  | addReg | subReg | shr | subn | shl =>
    exact absurd ht (not_halted_of_next h ((State.writeFlagged_status ..).trans hrun))
  | _ => exact absurd ht (not_halted_of_next h hrun)

/-! ## Where a run stands still (R189) -/

/-- A run stands still only in a RUNNING core, at a jump to itself or an Fx0A with no key pressed. -/
theorem State.runEnd_cases {s : State} (h : s.runEnd = .selfJump ∨ s.runEnd = .waitsForKey) :
    s.status = .running ∧ ∃ op i, s.fetch = .ok op ∧ decodeWord op = .ok i ∧
      ((∃ nnn, i = .jp nnn ∧ zextAddr nnn = s.pc) ∨ ∃ x, i = .ldVxK x ∧ s.leastKey = none) := by
  unfold State.runEnd at h
  split at h
  case h_1 => simp at h
  case h_2 hrun =>
    split at h
    case h_1 => simp at h
    case h_2 op hfetch =>
      split at h
      case h_1 nnn hd => exact ⟨hrun, op, _, hfetch, hd, .inl ⟨nnn, rfl, by_contra fun hne => by simp [hne] at h⟩⟩
      case h_2 x hd => exact ⟨hrun, op, _, hfetch, hd, .inr ⟨x, rfl, by_contra fun hne => by simp [hne] at h⟩⟩
      case h_3 => simp at h

theorem exec_jp_self {s : State} {nnn : BitVec 12} (h : zextAddr nnn = s.pc) : exec (.jp nnn) s = .next s := by
  show Host.Outcome.next (s.advance.setPc (zextAddr nnn)) = _
  rw [h]
  rfl

/-- Settles O45: the step runs the instruction found by `State.runEnd_cases`, which sets pc to pc or back to pc. -/
theorem stopIdiomAndKeyWaitStandStill : Obligations.StopIdiomAndKeyWaitStandStill := by
  unfold Obligations.StopIdiomAndKeyWaitStandStill
  intro s h
  obtain ⟨hrun, op, i, hfetch, hd, ⟨nnn, rfl, hself⟩ | ⟨x, rfl, hnone⟩⟩ := State.runEnd_cases h
  · rw [step_of_decode_ok hrun hfetch hd, exec_jp_self hself]
  · rw [step_of_decode_ok hrun hfetch hd, exec_ldVxK_of_noKey hnone]

/-! ## TICK (R180, R183) -/

theorem countDown_toNat (b : Byte) : (countDown b).toNat = b.toNat - 1 := by
  unfold countDown
  split
  · bv_omega
  · bv_omega

/-- Settles O49: both sound outputs are read off ST as a natural, where counting down is `- 1`. -/
theorem tickCountsTheTimersDown : Obligations.TickCountsTheTimersDown := by
  unfold Obligations.TickCountsTheTimersDown
  intro s
  have hST := countDown_toNat s.ST
  have hone : s.tick.1 = true ↔ s.ST.toNat = 1 := by
    rw [State.tick_soundEnd_iff]
    bv_omega
  have hedge : s.ST.toNat = 1 ↔ s.soundActive = true ∧ s.tick.2.soundActive = false := by
    rw [← Bool.not_eq_true, State.soundActive_iff, State.soundActive_iff]
    show _ ↔ s.ST ≠ 0 ∧ ¬ countDown s.ST ≠ 0
    bv_omega
  exact ⟨_, _, rfl, countDown_toNat s.DT, hST, hone.trans hedge, hone, State.soundActive_iff _,
    ((ChangesOnly.refl _ s).setDT _ (.inl rfl)).setST _ (.inr rfl)⟩

/-! ## KEY (R184) -/

theorem ChangesOnly.setKey {may : Part → Prop} {s t : State} (h : ChangesOnly may s t) (k : Fin 16) (b : Bool)
    (hq : may (.key k)) : ChangesOnly may s (t.setKey k b) := by
  refine h.trans fun p hp => ?_
  cases p
  case key j =>
    have hne : k.val ≠ j.val := fun e => hp (Fin.ext e ▸ hq)
    exact Vector.getElem_set_ne k.isLt j.isLt hne
  all_goals rfl

theorem State.keyPress_of_lt (s : State) (k : Fin 16) (pressed : Bool) :
    s.keyPress k.val pressed = .ok (s.setKey k pressed) := dif_pos k.isLt

theorem State.keyPress_of_ge (s : State) {index : Nat} (h : 15 < index) (pressed : Bool) :
    s.keyPress index pressed = .error .keyIndexRejected := dif_neg (by omega)

theorem transact_key (s : State) (index : Nat) (pressed : Bool) :
    transact s (.key index pressed) = .next (s.replyTo (s.keyPress index pressed)) := rfl

/-- Settles O50, by what `State.keyPress` answers below 16 and from there on. -/
theorem keySetsOneKey : Obligations.KeySetsOneKey := by
  unfold Obligations.KeySetsOneKey
  refine fun s index pressed => ⟨?_, fun h => ?_⟩
  · rintro k rfl
    rw [transact_key, State.keyPress_of_lt]
    exact ⟨_, rfl, Vector.getElem_set_self k.isLt, (ChangesOnly.refl _ s).setKey k pressed rfl⟩
  · rw [transact_key, State.keyPress_of_ge s h]
    rfl

end Sys2Proof.Machine

/-! # Runs of the host, and LOAD (70_reset_and_hazards.md rules R202, R209)

A run of the host keeps what each of its transactions keeps; LOAD is read off the one store that it is. -/

namespace Sys2Proof.Machine

/-! ## Runs of the host (R209) -/

theorem runHost_cons {s t : State} {tr : Transaction} {reply : Reply} (h : transact s tr = .next (reply, t))
    (ts : List Transaction) : runHost s (tr :: ts) = runHost t ts := by
  simp only [runHost, h]

/-- From any state within the invariant, by induction on the transactions still to come. -/
theorem runHost_staysWithin {s : State} (hs : s.Inv) (ts : List Transaction) : StaysWithin s (runHost s ts) := by
  induction ts generalizing s with
  | nil => exact .next hs rfl
  | cons tr ts ih =>
    obtain ⟨reply, t, htransact, ht, hp⟩ := transactionsKeepTheInvariant s tr hs
    rw [runHost_cons htransact]
    obtain ⟨u, hrun, hu, hpu⟩ := ih ht
    exact ⟨u, hrun, hu, hpu.trans hp⟩

/-- Settles O44: INITIALIZE meets the invariant, and a run keeps it (`runHost_staysWithin`). -/
theorem everyHostRunStaysWithinTheInvariant : Obligations.EveryHostRunStaysWithinTheInvariant := by
  unfold Obligations.EveryHostRunStaysWithinTheInvariant
  exact fun p ts => runHost_staysWithin (State.initial_inv p) ts

/-! ## LOAD (R202) -/

theorem State.load_of_fits (s : State) {bytes : List Byte} (h : 0x200 + bytes.length ≤ 4096) :
    s.load bytes = .ok (s.storeBytes 0x200 bytes) := if_neg (Nat.not_lt.2 h)

theorem State.load_of_tooLong (s : State) {bytes : List Byte} (h : 4096 < 0x200 + bytes.length) :
    s.load bytes = .error .loadOutOfBounds := if_pos h

theorem transact_load (s : State) (bytes : List Byte) :
    transact s (.load bytes) = .next (s.replyTo (s.load bytes)) := rfl

/-- Settles O48, by what `State.load` answers for an image that fits and for a longer one. -/
theorem loadCopiesTheImageOrNothing : Obligations.LoadCopiesTheImageOrNothing := by
  unfold Obligations.LoadCopiesTheImageOrNothing
  refine fun s bytes => ⟨fun hm hfits => ?_, fun hlong => ?_⟩
  · rw [transact_load, State.load_of_fits s hfits]
    exact ⟨_, rfl, fun _ => State.storeBytes_readByte_inside hm.1 0x200 bytes,
      (ChangesOnly.refl _ s).storeBytes 0x200 bytes fun k hk => ⟨k, hk, rfl⟩⟩
  · rw [transact_load, State.load_of_tooLong s hlong]
    rfl

end Sys2Proof.Machine
